-- ==== Sys2Proof/Word.lean ====
section
/-! DEFINITION. The byte, and the two readings `uN`, `sN` of 00_scope.md R9. -/

namespace Sys2Proof

/-- A byte of the buffer and of the wire form (R31, R49). -/
abbrev Byte := BitVec 8

/-- `uN(z)` of R9: the low `n` bits of the two's complement form of the integer `z`. -/
abbrev uN (n : Nat) (z : Int) : BitVec n := BitVec.ofInt n z

/-- `sN(u)` of R9: an `n`-bit pattern read as signed. -/
abbrev sN {n : Nat} (u : BitVec n) : Int := u.toInt

end Sys2Proof
end

