-- ==== Sys2Proof/Config.lean ====
section
/-! DEFINITION. What an implementation fixes (00_scope.md R7, R8: constants, and the named parameters with their
alternatives) and the free values (93_implementation_defined.md U1 to U3). The values the machine runs with are
`Machine.params` in Machine/Params.lean. -/

namespace Sys2Proof.Config

/-- `CBR_MUL` (R8, R104; U13): rounding of `ratio * 255` before the floor. -/
inductive CbrMul where
  /-- The product rounded once to binary64 (the spec's value). -/
  | rne64
  /-- The exact product, which the model lets no finite ratio overflow (log 24). -/
  | exact
  deriving DecidableEq, Repr

/-- `CBR1_POLICY` (R8, R106; U4): what happens to a hop-1 ratio outside [0, 1]. -/
inductive Cbr1Policy where
  /-- Not clamped, low 8 bits of the floor (the spec's value). -/
  | wrap
  /-- Treated as hop 0. -/
  | clamp
  deriving DecidableEq, Repr

/-- `CBR1_NEG_ROUNDING` (R8; conflict C2): rounding of a negative hop-1 product. -/
inductive NegRounding where
  /-- Toward minus infinity (the spec's value). -/
  | floor
  /-- Toward zero. -/
  | trunc
  deriving DecidableEq, Repr

/-- `TXP_TIES` (R8, R111; U12): the tie rule of the transmit power's rounding. -/
inductive TieRule where
  /-- Half away from zero (the spec's value). -/
  | halfAway
  /-- Half to even, the alternative R111 compares with. -/
  | halfEven
  deriving DecidableEq, Repr

/-- The parameters of R8 that the quantisers take. -/
structure Params where
  cbrMul : CbrMul
  cbr1Policy : Cbr1Policy
  cbr1NegRounding : NegRounding
  txpTies : TieRule
  deriving DecidableEq, Repr

/-- `HDR_BYTES` (R7): the size of the wire form in bytes. -/
abbrev hdrBytes : Nat := 28

/-- The unspecified CBR bytes of R103 (U1, U2): the value of draw `n` (log 1). -/
opaque freeByte : Nat → Byte

/-- The unspecified power level of R103 (U3), in 0 .. 31: the value of draw `n` (log 1). -/
opaque freeLevel : Nat → BitVec 5

end Sys2Proof.Config
end

