-- ==== Sys2Proof/Machine/Packer.lean ====
section
/-! DEFINITION. The byte-order converter and bit-field packer of 41_packer_byteorder.md, R72 to R81. Byte order is
decided here and nowhere else (20_memory.md R34, R35). -/

namespace Sys2Proof.Machine

/-- `PUT_BE16` (R72). -/
def putBe16 (v : BitVec 16) : Vector Byte 2 := #v[v.extractLsb' 8 8, v.extractLsb' 0 8]

/-- `PUT_BE32` (R73). -/
def putBe32 (v : BitVec 32) : Vector Byte 4 :=
  #v[v.extractLsb' 24 8, v.extractLsb' 16 8, v.extractLsb' 8 8, v.extractLsb' 0 8]

/-- `GET_BE16` (R74). -/
def getBe16 (bs : Vector Byte 2) : BitVec 16 := bs[0] ++ bs[1]

/-- `GET_BE32` (R75). -/
def getBe32 (bs : Vector Byte 4) : BitVec 32 := bs[0] ++ bs[1] ++ bs[2] ++ bs[3]

/-- Byte `A[i]` of the address on the 64-bit port (10_state.md R18): bits `63-8*i` down to `56-8*i`. -/
def addressByte (address : BitVec 64) (i : Nat) : Byte := address.extractLsb' (56 - 8 * i) 8

/-- `PUT_BYTES8` (R76). -/
def putBytes8 (address : BitVec 64) : Vector Byte 8 :=
  #v[addressByte address 0, addressByte address 1, addressByte address 2, addressByte address 3,
    addressByte address 4, addressByte address 5, addressByte address 6, addressByte address 7]

/-- `GET_BYTES8` (R77, port numbering of R18). -/
def getBytes8 (bs : Vector Byte 8) : BitVec 64 :=
  bs[0] ++ bs[1] ++ bs[2] ++ bs[3] ++ bs[4] ++ bs[5] ++ bs[6] ++ bs[7]

/-- `PACK_PAISPD` (R78): `(acc << 15) | spd15`. -/
def packPaispd (acc : Bool) (spd15 : BitVec 15) : BitVec 16 :=
  ((BitVec.ofBool acc).setWidth 16 <<< 15) ||| spd15.setWidth 16

/-- `UNPACK_PAISPD` (R79): `packed >> 15` and `packed & 0x7FFF`. -/
def unpackPaispd (packed : BitVec 16) : Bool × BitVec 15 := (packed.getLsbD 15, packed.setWidth 15)

/-- `PACK_TXP` (R80): `lvl & 0x1F` as a byte. -/
def packTxp (lvl : Nat) : Byte := uN 8 lvl &&& 0x1F#8

/-- `UNPACK_TXP` (R81): `b & 0x1F`, bits 4 to 0. -/
def unpackTxp (b : Byte) : BitVec 5 := b.setWidth 5

end Sys2Proof.Machine
end

