-- ==== Sys2Proof/Syntax.lean ====
section
/-! DEFINITION. The syntax: one constructor per row of spec/opcode_table.json. The operands of a command are the
operand records on the command port (10_state.md R16), which State holds: the table gives the three commands and the
reserved code no operand bits. -/

namespace Sys2Proof

/-- One 28-byte wire form, field by field, in the order of 30_encoding.md R50 (the `SHB_WIRE` row's letters are given
beside each field). The reserved bits are fields too, so that no bit of a window is dropped. -/
structure WireForm where
  /-- `a`, wire bytes 0 to 7; `A[0]` is the most significant byte (R18). -/
  address : BitVec 64
  /-- `t`, wire bytes 8 to 11. -/
  timestamp : BitVec 32
  /-- `y`, wire bytes 12 to 15: the pattern of the signed value. -/
  latitude : BitVec 32
  /-- `x`, wire bytes 16 to 19: the pattern of the signed value. -/
  longitude : BitVec 32
  /-- `p`, bit 7 of wire byte 20. -/
  accuracy : Bool
  /-- `s`, the packed speed: bits 6 to 0 of wire byte 20 and wire byte 21. -/
  speed : BitVec 15
  /-- `h`, wire bytes 22 and 23. -/
  heading : BitVec 16
  /-- `c`, wire byte 24. -/
  cbr0 : Byte
  /-- `d`, wire byte 25. -/
  cbr1 : Byte
  /-- The `000` of the row: bits 7 to 5 of wire byte 26, reserved (R64). -/
  reservedHigh : BitVec 3
  /-- `w`, bits 4 to 0 of wire byte 26. -/
  power : BitVec 5
  /-- The `00000000` of the row: wire byte 27, reserved (R61, R64). -/
  reservedByte : Byte
  deriving DecidableEq, Repr

/-- The rows of spec/opcode_table.json. -/
inductive Instr where
  /-- `SIZE`, op `00` (R63, R69). -/
  | size
  /-- `ENCODE`, op `01` (R63, R120). -/
  | encode
  /-- `DECODE`, op `10` (R63, R130). -/
  | decode
  /-- `RESERVED_OP3`, op `11`: selects no operation (R65). -/
  | reservedOp3
  /-- `SHB_WIRE`: the 28-byte wire format itself, no command of the block (R2, R50). -/
  | shbWire (w : WireForm)
  deriving DecidableEq, Repr

/-- Why bytes on the command port are no command code (log 5). -/
inductive CodeError where
  /-- Neither one byte (a command code) nor 28 bytes (a wire form). -/
  | length (n : Nat)
  /-- One byte whose bits 7 to 2 are not all zero: the port's code has two bits (R16, R63). -/
  | padding (b : Byte)
  deriving DecidableEq, Repr

end Sys2Proof
end

