-- ==== Sys2Proof/Decode.lean ====
section
/-! DEFINITION. From the bytes on the command port to an instruction, total on any bytes and rejecting by name; then the
encoder, written from the same tables (30_encoding.md R50, R63; layout on the port: log 5). -/

namespace Sys2Proof

open Sys2Proof.Machine

/-- The command codes of R63; the reserved code of R65. -/
def decodeOp (op : BitVec 2) : Instr :=
  if op = 0b00#2 then .size
  else if op = 0b01#2 then .encode
  else if op = 0b10#2 then .decode
  else .reservedOp3

/-- One byte carries the 2-bit code in its low bits; its other bits are no part of the port and must be zero. -/
def decodeCommandByte (b : Byte) : Except CodeError Instr :=
  if b.extractLsb' 2 6 = 0#6 then .ok (decodeOp (b.extractLsb' 0 2)) else .error (.padding b)

/-- The fields of a 28-byte window (R50). -/
def WireForm.ofWindow (w : Vector Byte 28) : WireForm where
  address := getBytes8 #v[w[0], w[1], w[2], w[3], w[4], w[5], w[6], w[7]]
  timestamp := getBe32 #v[w[8], w[9], w[10], w[11]]
  latitude := getBe32 #v[w[12], w[13], w[14], w[15]]
  longitude := getBe32 #v[w[16], w[17], w[18], w[19]]
  accuracy := (unpackPaispd (getBe16 #v[w[20], w[21]])).1
  speed := (unpackPaispd (getBe16 #v[w[20], w[21]])).2
  heading := getBe16 #v[w[22], w[23]]
  cbr0 := w[24]
  cbr1 := w[25]
  reservedHigh := w[26].extractLsb' 5 3
  power := unpackTxp w[26]
  reservedByte := w[27]

/-- The bytes of a wire form, the first on the wire first (R50). -/
def WireForm.toBytes (w : WireForm) : List Byte :=
  (putBytes8 w.address).toList ++ (putBe32 w.timestamp).toList ++ (putBe32 w.latitude).toList
    ++ (putBe32 w.longitude).toList ++ (putBe16 (packPaispd w.accuracy w.speed)).toList
    ++ (putBe16 w.heading).toList ++ [w.cbr0, w.cbr1, w.reservedHigh ++ w.power, w.reservedByte]

/-- The decoder: one byte is a command code, 28 bytes are a wire form, anything else is refused by name. -/
def decodeBytes (bs : List Byte) : Except CodeError Instr :=
  match bs with
  | [b] => decodeCommandByte b
  | _ =>
    if h : bs.length = 28 then .ok (.shbWire (WireForm.ofWindow ⟨bs.toArray, by simpa using h⟩))
    else .error (.length bs.length)

/-- The code of R63 that selects an operation. -/
def encodeOp (op : BitVec 2) : List Byte := [op.setWidth 8]

/-- The encoder. -/
def encode : Instr → List Byte
  | .size => encodeOp 0b00#2
  | .encode => encodeOp 0b01#2
  | .decode => encodeOp 0b10#2
  | .reservedOp3 => encodeOp 0b11#2
  | .shbWire w => w.toBytes

/-- The bytes of `n` bits of `w`, most significant byte first: spec/opcode_table.json numbers the `SHB_WIRE` row's bit
223 as bit 7 of wire byte 0, and a command code has one byte, where the order says nothing (log 6). -/
def tableBytes (nbits w : Nat) : List Byte :=
  (List.range ((nbits + 7) / 8)).map fun k => BitVec.ofNat 8 (w >>> (8 * ((nbits + 7) / 8 - 1 - k)))

/-- The instruction the decoder reads from a table row's word. -/
def decodeTableWord (nbits w : Nat) : Option Instr := (decodeBytes (tableBytes nbits w)).toOption

end Sys2Proof
end

