-- ==== Sys2Proof/Machine/State.lean ====
section
/-! DEFINITION. The machine's state as plain data: the host's buffer and cursor, the command port's operand records,
the last response, the fault mark (10_state.md R15 to R22; 60_exceptions.md R141, R146), the moves the host has yet to
make (30_encoding.md R67), and the counter of free values (log 1); why a step can stop; the state after reset. -/

namespace Sys2Proof.Machine

/-- The buffer's memory: the bytes that differ from what an unlisted address reads as, addresses strictly rising. -/
abbrev Mem := List Host.Cell

/-- `HDR`, the Source Long Position Vector: the seven fields of R17, 193 bits. DESIGN CHOICE: R16's table gives the
record as 224 bits in all, and the model follows R17's fields (log 23). -/
structure Hdr where
  /-- `A[0] .. A[7]`, `A[0]` most significant (R18). -/
  address : BitVec 64
  timestamp : BitVec 32
  /-- `i32` (R17). -/
  latitude : BitVec 32
  /-- `i32` (R17). -/
  longitude : BitVec 32
  /-- `i16`, `SPEED_W = 16` (R8, R17). -/
  speed : BitVec 16
  positionAccuracy : Bool
  heading : BitVec 16
  deriving DecidableEq, Repr

/-- `MET`, the optional channel metrics (R19); the ratios are binary64 patterns. -/
structure Met where
  present : Bool
  cbr0 : BitVec 64
  cbr1 : BitVec 64
  deriving DecidableEq, Repr

/-- `PHY`, the optional transmit power (R20), a binary64 pattern. -/
structure Phy where
  present : Bool
  txPower : BitVec 64
  deriving DecidableEq, Repr

/-- `CMD`, the command record on the port (R16): every operand is there, whichever of them an operation reads. -/
structure Command where
  /-- The code as presented; `op` is its two low bits (R63; log 5). -/
  code : List Byte
  cur : BitVec 32
  hdr : Hdr
  met : Met
  phy : Phy
  deriving DecidableEq, Repr

/-- The header results of `DECODE` (R21). -/
structure Decoded where
  address : BitVec 64
  timestamp : BitVec 32
  latitude : BitVec 32
  longitude : BitVec 32
  speed : BitVec 16
  positionAccuracy : Bool
  heading : BitVec 16
  cbr0 : BitVec 64
  cbr1 : BitVec 64
  txPowerLevel : BitVec 5
  deriving DecidableEq, Repr

/-- `RES` with `cur_out`, one variant per operation: a response has only the fields its operation produces (R21, R22). -/
inductive Response where
  | size (size : BitVec 32)
  | encode (bytes curOut : BitVec 32)
  | decode (fields : Decoded) (bytes curOut : BitVec 32)
  deriving DecidableEq, Repr

/-- The operations that can meet `BufferBounds` (R141). -/
inductive WindowOp where
  | encode
  | decode
  deriving DecidableEq, Repr

/-- What `BufferBounds` records: the operation and `cur`, nothing else (R141). Its code is `bufferBoundsCode`. -/
structure FaultRecord where
  op : WindowOp
  cur : BitVec 32
  deriving DecidableEq, Repr

/-- Where a command's `cur` comes from (R67): written in the program, or the cursor the host carries. -/
inductive CurSource where
  | at (n : BitVec 32)
  | carry
  deriving DecidableEq, Repr

/-- A move of the host: one program line (R67), or a write of its own buffer between operations (R31, R43 item 3). -/
inductive HostMove where
  | issue (code : List Byte) (cur : CurSource) (hdr : Hdr) (met : Met) (phy : Phy)
  | write (addr : BitVec 32) (byte : Byte)
  deriving DecidableEq, Repr

/-- The whole system's state (R15). -/
structure State where
  /-- `Buf` (R31). -/
  buf : Mem
  /-- `BUF_LEN`, `0 .. 2^32 - 1` (R31). -/
  bufLen : BitVec 32
  /-- The host's cursor (R15, R23). -/
  cursor : BitVec 32
  /-- The command port (R16). -/
  cmd : Command
  /-- The last command's response, none if it has none (R21, R145, R160). -/
  res : Option Response
  /-- The fault mark (R146). -/
  faulted : Bool
  /-- What the last `BufferBounds` recorded (R141; log 11). -/
  faultRec : Option FaultRecord
  /-- The moves the host has yet to make, the first one first (R67; log 8). -/
  script : List HostMove
  /-- The model's own: how many free values have been drawn (log 1). -/
  draws : Nat
  deriving DecidableEq, Repr

/-- Why the machine stops with a fault. -/
inductive Fault where
  /-- The host writes a byte outside its own buffer, an address that does not exist (R31): raised by `hostWrite`.
  Safe: nothing is claimed of such a host (log 18). -/
  | hostBounds (addr : BitVec 32)
  deriving DecidableEq, Repr

/-- Why a command has no meaning. -/
inductive Refusal where
  /-- An instruction without a meaning yet; no arm of `exec` answers with it now. Safe. -/
  | notModelled (mnemonic : String)
  /-- The reserved code `11` (R65): raised by `execReservedOp3`. Safe: the model claims nothing of it. -/
  | reservedCommand
  /-- The wire format presented as a command; the block has three operations and no others (R2): raised by
  `execShbWire`. Safe (log 6). -/
  | wireFormIsNoCommand
  /-- The port's bytes are no command code: raised by `step` through `issueMove`. Safe (log 5). -/
  | noCommandCode (e : CodeError)
  deriving DecidableEq, Repr

/-- No command has been issued: every operand record zero, both collaborators absent (R160; log 4). -/
def Command.none : Command where
  code := []
  cur := 0#32
  hdr := ⟨0#64, 0#32, 0#32, 0#32, 0#16, false, 0#16⟩
  met := ⟨false, 0#64, 0#64⟩
  phy := ⟨false, 0#64⟩

/-- After reset (R160): nothing in flight, no response pending, `faulted` 0. The host's pieces are not reset by the
block; logs 2, 3, 4 and 8 name the values the model starts them with. -/
def State.reset : State where
  buf := []
  bufLen := 0xFFFFFFFF#32
  cursor := 0#32
  cmd := Command.none
  res := Option.none
  faulted := false
  faultRec := Option.none
  script := []
  draws := 0

end Sys2Proof.Machine
end

