-- ==== Sys2Proof/Machine/Ops.lean ====
section
/-! DEFINITION. The named operations over the buffer and the state: byte reads and writes (20_memory.md R31, R32), the
window check (R33), responding, taking and returning from `BufferBounds` (60_exceptions.md R141, R145, R147), and the
host's moves. -/

namespace Sys2Proof.Machine

/-- What an address that no cell lists reads as (log 3). -/
def unlistedByte : Byte := 0x00#8

/-- The byte of a buffer at an address. -/
def Mem.read : Mem → Nat → Byte
  | [], _ => unlistedByte
  | c :: m, a => if c.1 = a then c.2 else Mem.read m a

/-- The buffer without a cell at `a`. -/
def Mem.erase (m : Mem) (a : Nat) : Mem := m.filter fun c => c.1 ≠ a

/-- A cell put before the first cell of a higher address. -/
def Mem.insert (a : Nat) (b : Byte) : Mem → Mem
  | [] => [(a, b)]
  | c :: m => if a < c.1 then (a, b) :: c :: m else c :: Mem.insert a b m

/-- A byte written: the one cell of its address, or none where the byte is what an unlisted address reads as. -/
def Mem.write (m : Mem) (a : Nat) (b : Byte) : Mem :=
  if b = unlistedByte then m.erase a else Mem.insert a b (m.erase a)

/-- The canonical form: addresses strictly rising, no cell equal to what an unlisted address reads as. -/
abbrev Mem.wf (m : Mem) : Prop := m.Pairwise (fun c d => c.1 < d.1) ∧ ∀ c ∈ m, c.2 ≠ unlistedByte

/-- The byte of the buffer at an address. -/
def State.byteAt (s : State) (a : Nat) : Byte := s.buf.read a

/-- `MemRead(addr, n)` (R32), lowest address first. -/
def State.memRead (s : State) (addr n : Nat) : Vector Byte n := Vector.ofFn fun k => s.byteAt (addr + k)

/-- `MemWrite(addr, n, bs)` (R32) on the buffer, single bytes in ascending order (R38). -/
def Mem.writeBytes : Mem → Nat → List Byte → Mem
  | m, _, [] => m
  | m, a, b :: bs => Mem.writeBytes (m.write a b) (a + 1) bs

/-- `MemWrite(addr, n, bs)` (R32). -/
def State.memWrite (s : State) (addr : Nat) (bs : List Byte) : State :=
  { s with buf := s.buf.writeBytes addr bs }

/-- Window admission (R33): `cur + 28 <= BUF_LEN`, the sum exact. -/
abbrev State.windowFits (s : State) : Prop := s.cmd.cur.toNat + Config.hdrBytes ≤ s.bufLen.toNat

/-- `cur_out = cur + 28` (R24). -/
def State.curOut (s : State) : BitVec 32 := s.cmd.cur + 28#32

/-- A response without `cur_out` (`SIZE`, R24). -/
def State.respond (s : State) (r : Response) : State := { s with res := some r }

/-- A response with `cur_out`, which the host takes as its cursor (R24; 70_reset_and_hazards.md R162 item 6; log 9). -/
def State.respondAdvancing (s : State) (r : Response) (curOut : BitVec 32) : State :=
  { s with res := some r, cursor := curOut }

/-- The code of `BufferBounds` (R141). -/
def bufferBoundsCode : Nat := 1

/-- Taking `BufferBounds` (R141, R145): no access, no response, no `cur_out`, the buffer unchanged, the mark set, the
operation and `cur` recorded. -/
def State.raiseBufferBounds (s : State) (op : WindowOp) : State :=
  { s with res := none, faulted := true, faultRec := some ⟨op, s.cmd.cur⟩ }

/-- The host's next move is to issue a command: its operands are sampled once, at acceptance (R166), and `cur` is as
written or the cursor the host carries (R67). -/
def State.accept (s : State) (code : List Byte) (cur : CurSource) (hdr : Hdr) (met : Met) (phy : Phy) : State :=
  { s with
    cmd :=
      { code := code
        cur := match cur with
          | .at n => n
          | .carry => s.cursor
        hdr := hdr
        met := met
        phy := phy } }

/-- The host writes one byte of its buffer between operations (R31, R43 item 3); outside it there is no such byte. -/
def hostWrite (addr : BitVec 32) (b : Byte) (s : State) : Host.Outcome State Fault Refusal :=
  if addr.toNat < s.bufLen.toNat then .next (s.memWrite addr.toNat [b]) else .fault (.hostBounds addr)

/-- A command is decoded from the bytes on the port and run; bytes that are no code are refused by name. -/
def runCode (run : Instr → State → Host.Outcome State Fault Refusal) (code : List Byte) (s : State) :
    Host.Outcome State Fault Refusal :=
  match decodeBytes code with
  | .ok i => run i s
  | .error e => .refused (.noCommandCode e)

/-- One step of the system, over the meaning of instructions: the host's first move is made; with no move left the
block waits for a command and nothing changes (R160, R163; log 8). -/
def hostStep (run : Instr → State → Host.Outcome State Fault Refusal) (s : State) :
    Host.Outcome State Fault Refusal :=
  match s.script with
  | [] => .next s
  | .write a b :: rest => hostWrite a b { s with script := rest }
  | .issue code cur hdr met phy :: rest =>
    runCode run code (State.accept { s with script := rest } code cur hdr met phy)

/-- The host's next move is to issue the bytes `code` with the operands that stand on the port now. -/
def State.withCode (s : State) (code : List Byte) : State :=
  { s with script := .issue code (.at s.cmd.cur) s.cmd.hdr s.cmd.met s.cmd.phy :: s.script }

end Sys2Proof.Machine
end

