-- ==== Sys2Proof/Machine/Params.lean ====
section
/-! DEFINITION. The parameter values the machine runs with: those 00_scope.md R8 takes. -/

namespace Sys2Proof.Machine

/-- R8, "Value taken" (92_eei_decisions.md D11, D12, D13; log 12). -/
def params : Config.Params where
  cbrMul := .rne64
  cbr1Policy := .wrap
  cbr1NegRounding := .floor
  txpTies := .halfAway

end Sys2Proof.Machine
end

