-- ==== Sys2Proof/Machine/Quantiser.lean ====
section
/-! DEFINITION. The CBR quantisers, the transmit-power quantiser and the clamp helper of 43_cbr_txpower_quantizer.md,
R100 to R111. Every finite binary64 value is an integer multiple of `2^-1074`; the rules' exact rationals are held as
that integer, their UNITS, so `val(x) = units x / 2^1074` with no rounding anywhere (log 13). A result that R103 leaves
unspecified is `none`; the operation that uses it draws a free value. -/

namespace Sys2Proof.Machine

open Sys2Proof.Config

/-- The units of the value 1: `2^1074`. -/
def one64 : Nat := 2 ^ 1074

/-- `s = x[63]` of R100. -/
def fpSign (x : BitVec 64) : Bool := x.getLsbD 63

/-- `E = x[62:52]` of R100. -/
def fpExp (x : BitVec 64) : Nat := (x.extractLsb' 52 11).toNat

/-- `F = x[51:0]` of R100. -/
def fpFrac (x : BitVec 64) : Nat := (x.extractLsb' 0 52).toNat

/-- The classes of R100's table. -/
inductive FpClass where
  | zero
  | subnormal
  | normal
  | infinity
  | nan
  deriving DecidableEq, Repr

/-- The class of a pattern (R100). -/
def fpClass (x : BitVec 64) : FpClass :=
  if fpExp x = 0 then (if fpFrac x = 0 then .zero else .subnormal)
  else if fpExp x = 2047 then (if fpFrac x = 0 then .infinity else .nan)
  else .normal

/-- The pattern denotes a rational: it is a zero, a subnormal or a normal (R100). -/
def fpFinite (x : BitVec 64) : Bool := fpExp x != 2047

/-- `|val(x)|` of a finite pattern, in units (R100): `F` below the normals, else `(2^52 + F) * 2^(E-1)`. -/
def magUnits (x : BitVec 64) : Nat :=
  if fpExp x = 0 then fpFrac x else (2 ^ 52 + fpFrac x) * 2 ^ (fpExp x - 1)

/-- `val(x)` of a finite pattern, in units (R100). -/
def units (x : BitVec 64) : Int := if fpSign x then -(magUnits x : Int) else magUnits x

/-- `val(x)` of a finite pattern as a rational (R100). -/
def val (x : BitVec 64) : ℚ := (units x : ℚ) / (one64 : ℚ)

/-- The integer nearest to `n / d`, ties to even (`d > 0`). -/
def roundHalfEven (n d : Nat) : Nat :=
  if 2 * (n % d) < d then n / d
  else if d < 2 * (n % d) then n / d + 1
  else if n / d % 2 = 0 then n / d
  else n / d + 1

/-- The `e` with `2^e <= n / d < 2^(e+1)`, for `n` and `d` above 0. -/
def floorLog2 (n d : Nat) : Int :=
  let e : Int := (Nat.log2 n : Int) - (Nat.log2 d : Int)
  if d * 2 ^ e.toNat ≤ n * 2 ^ (-e).toNat then e else e - 1

/-- The exponent of R101's `quantum` for `|q| = n / d`. -/
def quantumExp (n d : Nat) : Int := if -1022 ≤ floorLog2 n d then floorLog2 n d - 52 else -1074

/-- `RNE64` (R101) of `|q| = n / d` with `n`, `d` above 0: the 63 low bits of the pattern. The rounded value is
`m * 2^k`; a binary64 pattern read as a number counts its values in order, which puts it at `(k + 1074) * 2^52 + m`,
and `2047 * 2^52` is infinity. -/
def rneMagnitude (n d : Nat) : Nat :=
  let k := quantumExp n d
  let m := roundHalfEven (n * 2 ^ (-k).toNat) (d * 2 ^ k.toNat)
  min ((k + 1074).toNat * 2 ^ 52 + m) (2047 * 2 ^ 52)

/-- `RNE64(num / den)` (R101), `den > 0`; 0 gives +0, a negative value that rounds to zero -0 (log 14). -/
def rne64 (num : Int) (den : Nat) : BitVec 64 :=
  if num = 0 then 0#64
  else BitVec.ofBool (decide (num < 0)) ++ BitVec.ofNat 63 (rneMagnitude num.natAbs den)

/-- `clamp` (R102). -/
def clamp (q lo hi : Int) : Int := min (max q lo) hi

/-- `MUL255` (R104) of a value in units, in units; `none` where the rounded product overflows binary64 (R103).
DESIGN CHOICE: under `CBR_MUL = exact`, whose product is not rounded, no finite value is `none` (log 24). -/
def mul255 (mul : CbrMul) (q : Int) : Option Int :=
  match mul with
  | .exact => some (q * 255)
  | .rne64 => if fpFinite (rne64 (q * 255) one64) then some (units (rne64 (q * 255) one64)) else none

/-- `floor` of a value in units (toward minus infinity). -/
def floorUnits (q : Int) : Int := q / (one64 : Int)

/-- Rounding of a hop-1 product: floor, or toward zero under `CBR1_NEG_ROUNDING = trunc` (R8, C2). -/
def roundProduct (r : NegRounding) (q : Int) : Int :=
  match r with
  | .floor => floorUnits q
  | .trunc => q.tdiv (one64 : Int)

/-- `Q_CBR0` of a finite value in units (R105). -/
def quantClamped (mul : CbrMul) (q : Int) : Option Byte :=
  (mul255 mul (clamp q 0 one64)).map fun p => uN 8 (floorUnits p)

/-- `Q_CBR0` (R105; non-finite operands R103). -/
def qCbr0 (p : Params) (x : BitVec 64) : Option Byte :=
  match fpClass x with
  | .nan => none
  | .infinity => some (if fpSign x then 0#8 else 255#8)
  | _ => quantClamped p.cbrMul (units x)

/-- `Q_CBR1` of a finite value in units, not clamped (R106). -/
def quantWrapped (p : Params) (q : Int) : Option Byte :=
  (mul255 p.cbrMul q).map fun r => uN 8 (roundProduct p.cbr1NegRounding r)

/-- `Q_CBR1` (R106; non-finite operands R103; `CBR1_POLICY = clamp` treats it as hop 0). -/
def qCbr1 (p : Params) (x : BitVec 64) : Option Byte :=
  match p.cbr1Policy with
  | .clamp => qCbr0 p x
  | .wrap =>
    match fpClass x with
    | .nan => none
    | .infinity => none
    | _ => quantWrapped p (units x)

/-- `DQ_CBR` (R108): the binary64 nearest to `b / 255`. -/
def dqCbr (b : Byte) : BitVec 64 := rne64 b.toNat 255

/-- `round_half_away` (R111) of a value in units: `floor(q + 1/2)` computed exactly, mirrored below zero. -/
def roundHalfAway (q : Int) : Int :=
  if 0 ≤ q then (2 * q + one64) / (2 * one64) else -((2 * -q + one64) / (2 * one64))

/-- Rounding to the nearest integer under `TXP_TIES` (R8, R111). -/
def roundNearest (t : TieRule) (q : Int) : Int :=
  match t with
  | .halfAway => roundHalfAway q
  | .halfEven => if 0 ≤ q then roundHalfEven q.natAbs one64 else -(roundHalfEven q.natAbs one64 : Int)

/-- `Q_TXP` (R110; non-finite operands R103): round, then clamp to 0 .. 31. -/
def qTxp (p : Params) (x : BitVec 64) : Option Nat :=
  match fpClass x with
  | .nan => none
  | .infinity => some (if fpSign x then 0 else 31)
  | _ => some (clamp (roundNearest p.txpTies (units x)) 0 31).toNat

end Sys2Proof.Machine
end

