-- ==== Sys2Proof/Machine/Scaler.lean ====
section
/-! DEFINITION. The fixed-point scaler of 42_fixed_point_scaler.md, R90 to R94. No scale factor is applied to
coordinates (R92). -/

namespace Sys2Proof.Machine

/-- `FX_TO_WIRE` (R90): `u32(x)` of the signed coordinate `x`. -/
def fxToWire (x : BitVec 32) : BitVec 32 := uN 32 (sN x)

/-- `FX_FROM_WIRE` (R91): `s32(u)`, held as the `i32` operand's two's complement pattern. -/
def fxFromWire (u : BitVec 32) : BitVec 32 := uN 32 (sN u)

/-- `h = speed >>a 1` and `d = h * 2` of R93 on mathematical integers: `speed` with its low bit cleared. -/
def halveDouble (speed : Int) : Int := (speed / 2) * 2

/-- `SPD_SCALE` (R93), for a signed operand of any width (`SPEED_W`; R97): `u16(d) & 0x7FFF`. -/
def spdScale {n : Nat} (speed : BitVec n) : BitVec 15 :=
  (uN 16 (halveDouble (sN speed)) &&& 0x7FFF#16).setWidth 15

/-- `SPD_UNSCALE` (R94): `zext_16(spd15)`, no arithmetic. -/
def spdUnscale (spd15 : BitVec 15) : BitVec 16 := spd15.setWidth 16

end Sys2Proof.Machine
end

