-- ==== Sys2Proof/Machine/Operands.lean ====
section
/-! DEFINITION. From operand records to the bytes of a window and from a window to results: the data paths that `ENCODE`
and `DECODE` are made of (30_encoding.md R49 to R62). -/

namespace Sys2Proof.Machine

/-- The extension is live when both collaborators are present (R62, R122). -/
def Command.extensionLive (c : Command) : Bool := c.met.present && c.phy.present

/-- A CBR byte: the quantiser's, or draw `n` where R103 leaves it unspecified. -/
def drawnByte (q : Option Byte) (n : Nat) : Byte := q.getD (Config.freeByte n)

/-- A power level: the quantiser's, or draw `n` where R103 leaves it unspecified. -/
def drawnLevel (q : Option Nat) (n : Nat) : Nat := q.getD (Config.freeLevel n).toNat

/-- Wire bytes 24 to 27, the link metrics extension (R58 to R62, R122), its free values drawn from `n` on. -/
def Command.extensionBytes (p : Config.Params) (c : Command) (n : Nat) : Vector Byte 4 :=
  if c.extensionLive then
    #v[drawnByte (qCbr0 p c.met.cbr0) n, drawnByte (qCbr1 p c.met.cbr1) (n + 1),
      packTxp (drawnLevel (qTxp p c.phy.txPower) (n + 2)), 0x00#8]
  else #v[0x00#8, 0x00#8, 0x00#8, 0x00#8]

/-- How many free values one `ENCODE` numbers: byte 24, byte 25, the power level (log 1). -/
def drawsPerEncode : Nat := 3

/-- The 28 bytes `W` of `ENCODE` (R120; layout R49), the extension's free values drawn from `n` on. -/
def Command.window (p : Config.Params) (c : Command) (n : Nat) : Vector Byte 28 :=
  let a := putBytes8 c.hdr.address
  let t := putBe32 c.hdr.timestamp
  let y := putBe32 (fxToWire c.hdr.latitude)
  let x := putBe32 (fxToWire c.hdr.longitude)
  let v := putBe16 (packPaispd c.hdr.positionAccuracy (spdScale c.hdr.speed))
  let h := putBe16 c.hdr.heading
  let e := c.extensionBytes p n
  #v[a[0], a[1], a[2], a[3], a[4], a[5], a[6], a[7], t[0], t[1], t[2], t[3], y[0], y[1], y[2], y[3],
    x[0], x[1], x[2], x[3], v[0], v[1], h[0], h[1], e[0], e[1], e[2], e[3]]

/-- The header results of `DECODE` from the 28 bytes `W` (R130); `W[27]` and `W[26][7:5]` reach none of them (R137). -/
def decodeWindow (w : Vector Byte 28) : Decoded :=
  let paispd := unpackPaispd (getBe16 #v[w[20], w[21]])
  { address := getBytes8 #v[w[0], w[1], w[2], w[3], w[4], w[5], w[6], w[7]]
    timestamp := getBe32 #v[w[8], w[9], w[10], w[11]]
    latitude := fxFromWire (getBe32 #v[w[12], w[13], w[14], w[15]])
    longitude := fxFromWire (getBe32 #v[w[16], w[17], w[18], w[19]])
    speed := spdUnscale paispd.2
    positionAccuracy := paispd.1
    heading := getBe16 #v[w[22], w[23]]
    cbr0 := dqCbr w[24]
    cbr1 := dqCbr w[25]
    txPowerLevel := unpackTxp w[26] }

end Sys2Proof.Machine
end

