-- ==== Sys2Proof/Machine/DecodeHeader.lean ====
section
/-! DEFINITION. The operation `DECODE` (45_decode.md). -/

namespace Sys2Proof.Machine

/-- `DECODE` with an admitted window (R130): 28 bytes read, the results, `RES.bytes`, `cur_out`. -/
def decodeAdmitted (s : State) : State :=
  s.respondAdvancing
    (.decode (decodeWindow (s.memRead s.cmd.cur.toNat 28)) (BitVec.ofNat 32 Config.hdrBytes) s.curOut) s.curOut

/-- `DECODE` (R130): the window check precedes everything else (R144). -/
def execDecode (s : State) : Host.Outcome State Fault Refusal :=
  if s.windowFits then .next (decodeAdmitted s) else .next (s.raiseBufferBounds .decode)

end Sys2Proof.Machine
end

