-- ==== Sys2Proof/Machine/EncodeHeader.lean ====
section
/-! DEFINITION. The operation `ENCODE` (44_encode.md). -/

namespace Sys2Proof.Machine

/-- `ENCODE` with an admitted window (R120): 28 bytes written, `RES.bytes`, `cur_out`. -/
def encodeAdmitted (s : State) : State :=
  let t := s.memWrite s.cmd.cur.toNat (s.cmd.window params s.draws).toList
  { t.respondAdvancing (.encode (BitVec.ofNat 32 Config.hdrBytes) s.curOut) s.curOut with
    draws := s.draws + drawsPerEncode }

/-- `ENCODE` (R120): the window check precedes everything else (R144). -/
def execEncode (s : State) : Host.Outcome State Fault Refusal :=
  if s.windowFits then .next (encodeAdmitted s) else .next (s.raiseBufferBounds .encode)

end Sys2Proof.Machine
end

