-- ==== Sys2Proof/Machine/Flags.lean ====
section
/-! DEFINITION. The flag computations: there are none. The block has no flags, condition codes or predicates, and no
operation sets or reads one (10_state.md R26); a clamped value leaves no trace but its byte. The only mark, `faulted`,
is the model's bookkeeping and is set in Machine/Ops.lean (60_exceptions.md R146). -/
end

