-- ==== Sys2Proof/Machine/NoOperation.lean ====
section
/-! DEFINITION. The table's two rows that select no operation: the reserved command code (30_encoding.md R65) and the
wire format presented as a command (R2, R50). -/

namespace Sys2Proof.Machine

/-- `RESERVED_OP3` (R65): the code is refused; it is no no-op and no error response. -/
def execReservedOp3 (_ : State) : Host.Outcome State Fault Refusal := .refused .reservedCommand

/-- `SHB_WIRE` (R50) is a format: the block has exactly three operations and no others (R2; log 6). -/
def execShbWire (_ : WireForm) (_ : State) : Host.Outcome State Fault Refusal := .refused .wireFormIsNoCommand

end Sys2Proof.Machine
end

