-- ==== Sys2Proof/Machine/SizeQuery.lean ====
section
/-! DEFINITION. The operation `SIZE` (40_size_query.md). -/

namespace Sys2Proof.Machine

/-- `SIZE` (R69): `RES.size <- 28`; nothing is read, nothing else is written, it never fails. -/
def execSize (s : State) : Host.Outcome State Fault Refusal :=
  .next (s.respond (.size (BitVec.ofNat 32 Config.hdrBytes)))

end Sys2Proof.Machine
end

