-- ==== Sys2Proof/WellFormed.lean ====
section
/-! DEFINITION. Which terms of the syntax are well-formed: a command that a host may issue (30_encoding.md R63, R65),
and a wire form that fits the pattern string of R50; beside it the canonical wire forms of R66. -/

namespace Sys2Proof

/-- The wire form fits the pattern string of R50: `000` in byte 26 and `00000000` in byte 27. -/
def WireForm.fitsPattern (w : WireForm) : Bool := w.reservedHigh == 0#3 && w.reservedByte == 0#8

/-- R66: the wire forms that `ENCODE` can produce are those that fit the pattern and whose packed speed is even. -/
def WireForm.canonical (w : WireForm) : Bool := w.fitsPattern && !w.speed.getLsbD 0

/-- A host must not issue the reserved code (R65); a wire form must fit the pattern of its row. -/
def Instr.wellFormed : Instr → Bool
  | .size => true
  | .encode => true
  | .decode => true
  | .reservedOp3 => false
  | .shbWire w => w.fitsPattern

end Sys2Proof
end

