-- ==== Sys2Proof/Machine/Dispatch.lean ====
section
/-! DEFINITION. One arm per row of spec/opcode_table.json. -/

namespace Sys2Proof.Machine

def exec (i : Instr) (s : State) : Host.Outcome State Fault Refusal :=
  match i with
  | .size => Sys2Proof.Machine.execSize s
  | .encode => Sys2Proof.Machine.execEncode s
  | .decode => Sys2Proof.Machine.execDecode s
  | .reservedOp3 => Sys2Proof.Machine.execReservedOp3 s
  | .shbWire w => Sys2Proof.Machine.execShbWire w s

end Sys2Proof.Machine
end

