-- ==== Sys2Proof/Machine/Step.lean ====
section
/-! DEFINITION. One step of the system, and how a table row's word comes to be the next command. -/

namespace Sys2Proof.Machine

/-- One step: the host's first move (10_state.md R15, R16; 30_encoding.md R67). -/
def step (s : State) : Host.Outcome State Fault Refusal := hostStep exec s

/-- `s` with the word `w` as the host's next command, the operands those that stand on the port (log 8). -/
def State.withFetchWord (s : State) (nbits w : Nat) : State := s.withCode (tableBytes nbits w)

end Sys2Proof.Machine
end

