-- ==== Sys2Proof/Safety.lean ====
section
/-! DEFINITION. What a successful run is (60_exceptions.md R145, R146: nothing is claimed after a fault), and the
invariant of the state. -/

namespace Sys2Proof.Machine

/-- No `BufferBounds` has happened: claims about the buffer are for such states (R145, R146; log 10). -/
def State.successful (s : State) : Prop := s.faulted = false

/-- The run of `k` steps from `s` ends, and ends unfaulted. -/
def State.successfulRun (s : State) (k : Nat) (t : State) : Prop := Sys2Proof.core.run k s = .next t ∧ t.successful

/-- The buffer is in its canonical form and has no byte outside its `BUF_LEN` addresses (R31). -/
abbrev State.bufferWf (s : State) : Prop := s.buf.wf ∧ ∀ c ∈ s.buf, c.1 < s.bufLen.toNat

/-- A fault is recorded exactly when the mark is set (R141, R146). -/
abbrev State.faultWf (s : State) : Prop := s.faulted = s.faultRec.isSome

/-- The invariant every step keeps. -/
abbrev State.Inv (s : State) : Prop := s.bufferWf ∧ s.faultWf

end Sys2Proof.Machine
end

