-- ==== Sys2Proof/Certificates/Slice0/Obligations.lean ====
section
/-! DEFINITION. The statements for the provers, from the spec's numbered rules. A statement marked derived names in its
docstring the spec's own mark or the model's log entry it rests on. -/

open Sys2Proof Sys2Proof.Machine

/-- The decoder reads op 00 as SIZE, 01 as ENCODE, 10 as DECODE and 11 as the reserved code. Rule R63. -/
def Obligations.CommandCodesSelectTheirOperations : Prop :=
  decodeBytes [0x00#8] = .ok .size ∧ decodeBytes [0x01#8] = .ok .encode ∧ decodeBytes [0x02#8] = .ok .decode
    ∧ decodeBytes [0x03#8] = .ok .reservedOp3

/-- The worked example's 28 bytes, written out, are decoded as the SHB_WIRE form whose fields are the example's values.
That 28 bytes on the port are read as this form is the model's layout (log 5). From 30_encoding.md section 1,
44_encode.md worked example. -/
def Obligations.DocScenarioWindowIsReadFieldByField : Prop :=
  decodeBytes
      [0x00#8, 0x11#8, 0x22#8, 0x33#8, 0x44#8, 0x55#8, 0x66#8, 0x77#8, 0x00#8, 0x00#8, 0x03#8, 0xE8#8,
        0x00#8, 0x01#8, 0x86#8, 0xA0#8, 0xFF#8, 0xFC#8, 0xF2#8, 0xC0#8, 0x80#8, 0x28#8, 0x00#8, 0x5A#8,
        0x7F#8, 0xCC#8, 0x14#8, 0x00#8]
    = .ok (.shbWire ⟨0x0011223344556677#64, 1000#32, 100000#32, BitVec.ofInt 32 (-200000), true, 40#15, 90#16,
        127#8, 204#8, 0#3, 20#5, 0#8⟩)

/-- For every instruction, the wire form with every value of every field included, decodeBytes (encode i) is i. The
layout of a code on the port is the model's (log 5). From 30_encoding.md section 1, 30_encoding.md section 3. -/
def Obligations.EveryInstructionDecodesFromItsEncoding : Prop :=
  ∀ i : Instr, decodeBytes (encode i) = .ok i

/-- Whenever the decoder reads bytes as an instruction, encoding that instruction gives exactly those bytes (layout on
the port: log 5). From 30_encoding.md section 1, 30_encoding.md section 3. -/
def Obligations.DecoderReadsOnlyEncodings : Prop :=
  ∀ (bs : List Byte) (i : Instr), decodeBytes bs = .ok i → encode i = bs

/-- The model's choice of log 5: bytes that are neither one byte nor 28 are the error length, and one byte above 3 is
the error padding. From 30_encoding.md section 3, 10_state.md section 2. -/
def Obligations.BytesThatAreNoCodeAreRefusedByName : Prop :=
  (∀ bs : List Byte, bs.length ≠ 1 → bs.length ≠ 28 → decodeBytes bs = .error (.length bs.length))
    ∧ ∀ b : Byte, 4 ≤ b.toNat → decodeBytes [b] = .error (.padding b)

/-- op 00 is SIZE, and in every state exec SIZE answers the state with RES.size = 28 and every other field unchanged; it
never faults. Rule R69. -/
def Obligations.SizeAnswersTwentyEight : Prop :=
  decodeBytes [0x00#8] = .ok .size
    ∧ ∀ s : State, exec .size s = .next { s with res := some (.size 28#32) }

/-- In every state whose window fits, all three operations complete, and the number SIZE answers is RES.bytes of ENCODE
and of DECODE and the distance from cur to cur_out. The host's cursor becoming cur_out is log 9. From
40_size_query.md. -/
def Obligations.SizeIsTheCountEncodeAndDecodeMove : Prop :=
  ∀ s : State, s.windowFits → ∃ n : BitVec 32,
    (∃ t, exec .size s = .next t ∧ t.res = some (.size n))
    ∧ (∃ t, exec .encode s = .next t ∧ t.res = some (.encode n (s.cmd.cur + n)) ∧ t.cursor = s.cmd.cur + n)
    ∧ ∃ t d, exec .decode s = .next t ∧ t.res = some (.decode d n (s.cmd.cur + n)) ∧ t.cursor = s.cmd.cur + n

/-- With an admitted window ENCODE completes and writes each exact field at its offset, most significant byte first (the
address raw), and DECODE completes and returns each field whose bytes are those of the window. Rule R52, R53, R54,
R55, R57. -/
def Obligations.ExactFieldsTravelBitForBit : Prop :=
  ∀ s : State, s.windowFits →
    (∃ t, exec .encode s = .next t
      ∧ (∀ i < 8, t.byteAt (s.cmd.cur.toNat + i) = s.cmd.hdr.address.extractLsb' (56 - 8 * i) 8)
      ∧ (∀ i < 4, t.byteAt (s.cmd.cur.toNat + 8 + i) = s.cmd.hdr.timestamp.extractLsb' (24 - 8 * i) 8)
      ∧ (∀ i < 4, t.byteAt (s.cmd.cur.toNat + 12 + i) = s.cmd.hdr.latitude.extractLsb' (24 - 8 * i) 8)
      ∧ (∀ i < 4, t.byteAt (s.cmd.cur.toNat + 16 + i) = s.cmd.hdr.longitude.extractLsb' (24 - 8 * i) 8)
      ∧ ∀ i < 2, t.byteAt (s.cmd.cur.toNat + 22 + i) = s.cmd.hdr.heading.extractLsb' (8 - 8 * i) 8)
    ∧ ∃ t d, exec .decode s = .next t ∧ t.res = some (.decode d 28#32 (s.cmd.cur + 28#32))
      ∧ (∀ i < 8, d.address.extractLsb' (56 - 8 * i) 8 = s.byteAt (s.cmd.cur.toNat + i))
      ∧ (∀ i < 4, d.timestamp.extractLsb' (24 - 8 * i) 8 = s.byteAt (s.cmd.cur.toNat + 8 + i))
      ∧ (∀ i < 4, d.latitude.extractLsb' (24 - 8 * i) 8 = s.byteAt (s.cmd.cur.toNat + 12 + i))
      ∧ (∀ i < 4, d.longitude.extractLsb' (24 - 8 * i) 8 = s.byteAt (s.cmd.cur.toNat + 16 + i))
      ∧ ∀ i < 2, d.heading.extractLsb' (8 - 8 * i) 8 = s.byteAt (s.cmd.cur.toNat + 22 + i)

/-- With an admitted window ENCODE completes and bytes 20 and 21 hold (acc << 15) | (((speed >>a 1) * 2) & 0x7FFF),
which is the accuracy bit, bits 14 to 1 of the speed and a zero; DECODE completes and returns bit 15 as the accuracy
and bits 14 to 0 zero-extended as the speed. Rule R56. -/
def Obligations.AccuracyAndSpeedShareOneField : Prop :=
  ∀ s : State, s.windowFits →
    (∃ t, exec .encode s = .next t
      ∧ (t.byteAt (s.cmd.cur.toNat + 20) ++ t.byteAt (s.cmd.cur.toNat + 21) : BitVec 16)
          = ((BitVec.ofBool s.cmd.hdr.positionAccuracy).setWidth 16 <<< 15)
            ||| ((s.cmd.hdr.speed.sshiftRight 1 * 2#16) &&& 0x7FFF#16)
      ∧ (t.byteAt (s.cmd.cur.toNat + 20) ++ t.byteAt (s.cmd.cur.toNat + 21) : BitVec 16)
          = BitVec.ofBool s.cmd.hdr.positionAccuracy ++ s.cmd.hdr.speed.extractLsb' 1 14 ++ 0#1)
    ∧ ∃ t d, exec .decode s = .next t ∧ t.res = some (.decode d 28#32 (s.cmd.cur + 28#32))
      ∧ d.positionAccuracy
          = (s.byteAt (s.cmd.cur.toNat + 20) ++ s.byteAt (s.cmd.cur.toNat + 21) : BitVec 16).getLsbD 15
      ∧ d.speed = (s.byteAt (s.cmd.cur.toNat + 20) ++ s.byteAt (s.cmd.cur.toNat + 21) : BitVec 16) &&& 0x7FFF#16

/-- With an admitted window ENCODE completes. Both present: byte 24 is Q_CBR0, byte 25 Q_CBR1, byte 26 PACK_TXP(Q_TXP),
each where the quantiser gives a value, and byte 27 is 0. In the other three cases all four are 0, whatever the
value operands hold. Rule R122. -/
def Obligations.ExtensionIsLiveOnlyWithBothCollaborators : Prop :=
  ∀ s : State, s.windowFits → ∃ t, exec .encode s = .next t
    ∧ (s.cmd.met.present = true ∧ s.cmd.phy.present = true →
        (∀ q, qCbr0 params s.cmd.met.cbr0 = some q → t.byteAt (s.cmd.cur.toNat + 24) = q)
        ∧ (∀ q, qCbr1 params s.cmd.met.cbr1 = some q → t.byteAt (s.cmd.cur.toNat + 25) = q)
        ∧ (∀ l, qTxp params s.cmd.phy.txPower = some l → t.byteAt (s.cmd.cur.toNat + 26) = packTxp l)
        ∧ t.byteAt (s.cmd.cur.toNat + 27) = 0x00#8)
    ∧ (¬ (s.cmd.met.present = true ∧ s.cmd.phy.present = true) →
        ∀ k, 24 ≤ k → k < 28 → t.byteAt (s.cmd.cur.toNat + k) = 0x00#8)

/-- With an admitted window ENCODE completes, bits 7 to 5 of byte 26 are zero and byte 27 is 0x00, for all operands.
Rule R125. -/
def Obligations.ReservedBitsAreZeroAfterEncode : Prop :=
  ∀ s : State, s.windowFits → ∃ t, exec .encode s = .next t
    ∧ (t.byteAt (s.cmd.cur.toNat + 26)).extractLsb' 5 3 = 0#3 ∧ t.byteAt (s.cmd.cur.toNat + 27) = 0x00#8

/-- Two states with the same command and buffer length whose admitted windows agree on bytes 0 to 25 and on bits 4 to 0
of byte 26 get the same DECODE response. Rule R137. -/
def Obligations.ReservedBitsAreIgnoredByDecode : Prop :=
  ∀ s₁ s₂ : State, s₁.cmd = s₂.cmd → s₁.windowFits → s₂.windowFits →
    (∀ k < 26, s₁.byteAt (s₁.cmd.cur.toNat + k) = s₂.byteAt (s₁.cmd.cur.toNat + k)) →
    (s₁.byteAt (s₁.cmd.cur.toNat + 26)).extractLsb' 0 5 = (s₂.byteAt (s₁.cmd.cur.toNat + 26)).extractLsb' 0 5 →
    ∃ t₁ t₂ d, exec .decode s₁ = .next t₁ ∧ exec .decode s₂ = .next t₂
      ∧ t₁.res = some (.decode d 28#32 (s₁.cmd.cur + 28#32)) ∧ t₂.res = t₁.res

/-- With an admitted window DECODE completes, the ratios are DQ_CBR of bytes 24 and 25 and the level is byte 26 & 0x1F;
if bytes 24 to 27 are all zero they are +0.0, +0.0 and 0. Rule R135, R136. -/
def Obligations.ExtensionBytesAreAlwaysDecoded : Prop :=
  ∀ s : State, s.windowFits → ∃ t d, exec .decode s = .next t
    ∧ t.res = some (.decode d 28#32 (s.cmd.cur + 28#32))
    ∧ d.cbr0 = dqCbr (s.byteAt (s.cmd.cur.toNat + 24)) ∧ d.cbr1 = dqCbr (s.byteAt (s.cmd.cur.toNat + 25))
    ∧ d.txPowerLevel.toNat = (s.byteAt (s.cmd.cur.toNat + 26)).toNat &&& 0x1F
    ∧ ((∀ k, 24 ≤ k → k < 28 → s.byteAt (s.cmd.cur.toNat + k) = 0x00#8) →
        d.cbr0 = 0#64 ∧ d.cbr1 = 0#64 ∧ d.txPowerLevel = 0#5)

/-- With an admitted window ENCODE completes: every byte outside cur .. cur+27 reads as before, the buffer length,
operands, script and fault mark are unchanged, the response is 28 bytes and cur + 28, and the host carries cur_out
as its cursor (log 9). Only the model's own count of free values (log 1) is not spoken of. From 44_encode.md,
20_memory.md section 4, 70_reset_and_hazards.md section 2. -/
def Obligations.EncodeChangesOnlyItsWindow : Prop :=
  ∀ s : State, s.windowFits → ∃ t, exec .encode s = .next t
    ∧ (∀ a, a < s.cmd.cur.toNat ∨ s.cmd.cur.toNat + 28 ≤ a → t.byteAt a = s.byteAt a)
    ∧ t.bufLen = s.bufLen ∧ t.cmd = s.cmd ∧ t.script = s.script ∧ t.faulted = s.faulted ∧ t.faultRec = s.faultRec
    ∧ t.res = some (.encode 28#32 (s.cmd.cur + 28#32)) ∧ t.cursor = s.cmd.cur + 28#32

/-- With an admitted window ENCODE and DECODE complete with RES.bytes = 28 and a cur_out whose value is cur + 28 as an
exact sum, in all four presence cases; SIZE completes in every state with a response that has no cur_out. Rule R24,
R123. -/
def Obligations.CursorAdvancesByTwentyEight : Prop :=
  (∀ s : State, s.windowFits →
      (∃ t c, exec .encode s = .next t ∧ t.res = some (.encode 28#32 c) ∧ c.toNat = s.cmd.cur.toNat + 28)
      ∧ ∃ t d c, exec .decode s = .next t ∧ t.res = some (.decode d 28#32 c) ∧ c.toNat = s.cmd.cur.toNat + 28)
    ∧ ∀ s : State, ∃ t, exec .size s = .next t ∧ t.res = some (.size 28#32)

/-- There is one function of 28 bytes such that in every state with an admitted window, whatever the window holds,
DECODE completes and its header results are that function of the window (cur_out being cur + 28). Rule R131. -/
def Obligations.DecodeIsATotalFunctionOfTheWindow : Prop :=
  ∃ f : Vector Byte 28 → Decoded, ∀ s : State, s.windowFits → ∃ t, exec .decode s = .next t
    ∧ t.res = some (.decode (f (Vector.ofFn fun k => s.byteAt (s.cmd.cur.toNat + k))) 28#32 (s.cmd.cur + 28#32))

/-- With an admitted window DECODE completes and its next state differs from the state before only in the response and
in the cursor, which the host takes from cur_out (log 9). From 45_decode.md, 20_memory.md section 4,
70_reset_and_hazards.md section 2. -/
def Obligations.DecodeChangesOnlyTheResponse : Prop :=
  ∀ s : State, s.windowFits → ∃ t d, exec .decode s = .next t
    ∧ t = { s with res := some (.decode d 28#32 (s.cmd.cur + 28#32)), cursor := s.cmd.cur + 28#32 }
    ∧ ∀ a, t.byteAt a = s.byteAt a

/-- If cur + 28 exceeds BUF_LEN, ENCODE and DECODE leave the buffer, its length, the operands, the cursor and the script
unchanged, leave no response and set the faulted mark, whatever the operands. Rule R145. -/
def Obligations.BufferBoundsDoesNothingButMark : Prop :=
  ∀ (s : State) (i : Instr), ¬ s.windowFits → i = .encode ∨ i = .decode → ∃ t, exec i s = .next t
    ∧ t.buf = s.buf ∧ (∀ a, t.byteAt a = s.byteAt a) ∧ t.res = none ∧ t.faulted = true
    ∧ t.bufLen = s.bufLen ∧ t.cmd = s.cmd ∧ t.cursor = s.cursor ∧ t.script = s.script ∧ t.draws = s.draws

/-- Whatever instruction completes, the mark is set afterwards exactly if it was set before or the instruction is ENCODE
or DECODE and cur + 28 > BUF_LEN; on an unfaulted state the operation and cur are then recorded. That a mark set
before stays set is R146. That a command without a fault leaves the record unchanged is the model's choice (log 11),
and so is what a later fault records, of which nothing is said. From R141, R146. -/
def Obligations.OnlyAShortBufferFaults : Prop :=
  bufferBoundsCode = 1
    ∧ ∀ (i : Instr) (s t : State), exec i s = .next t →
      (t.faulted = true ↔
        s.faulted = true ∨ ((i = .encode ∨ i = .decode) ∧ s.bufLen.toNat < s.cmd.cur.toNat + 28))
      ∧ (s.faulted = false → i = .encode → s.bufLen.toNat < s.cmd.cur.toNat + 28 →
          t.faultRec = some ⟨.encode, s.cmd.cur⟩)
      ∧ (s.faulted = false → i = .decode → s.bufLen.toNat < s.cmd.cur.toNat + 28 →
          t.faultRec = some ⟨.decode, s.cmd.cur⟩)
      ∧ (i = .size ∨ s.cmd.cur.toNat + 28 ≤ s.bufLen.toNat → t.faultRec = s.faultRec)

/-- The mark is false at reset; a command whose window does not fit sets it; and from every state with the mark set, a
step that answers a next state leaves it set. Rule R146. -/
def Obligations.FaultMarkIsNeverCleared : Prop :=
  State.reset.faulted = false
    ∧ (∀ s : State, ¬ s.windowFits →
        (∃ t, exec .encode s = .next t ∧ t.faulted = true) ∧ ∃ t, exec .decode s = .next t ∧ t.faulted = true)
    ∧ ∀ s t : State, step s = .next t → s.faulted = true → t.faulted = true

/-- If an instruction completes in a state, it completes in the same state with any mark and any fault record, with the
same response, buffer, cursor, operands and buffer length. That the run goes on at all after a fault is log 10. From
60_exceptions.md section 5, 10_state.md section 1. -/
def Obligations.TheMarkDoesNotChangeTheBlock : Prop :=
  ∀ (i : Instr) (s t : State) (b : Bool) (r : Option FaultRecord), exec i s = .next t →
    ∃ u, exec i { s with faulted := b, faultRec := r } = .next u ∧ u.res = t.res ∧ u.buf = t.buf
      ∧ u.cursor = t.cursor ∧ u.cmd = t.cmd ∧ u.bufLen = t.bufLen ∧ u.script = t.script

/-- At reset the buffer is in its canonical form (log 3) and inside BUF_LEN addresses (log 2), and no fault is recorded
(log 11). From 10_state.md section 1, 60_exceptions.md section 4. -/
def Obligations.ResetHoldsTheInvariant : Prop :=
  State.reset.Inv

/-- From every state with Inv, a step that answers a next state gives a state with Inv: addresses strictly rising, no
cell equal to what an unlisted address reads as (log 3), every address below BUF_LEN, a fault recorded exactly when
the mark is set. From 20_memory.md section 1, 60_exceptions.md section 4. -/
def Obligations.StepKeepsTheInvariant : Prop :=
  ∀ s t : State, s.Inv → step s = .next t → t.Inv

/-- If the host's next move (log 8) issues bytes that decode to i, the step is exec of i on the state with the move
taken off the script and the operands of the move on the port, cur as written or the carried cursor. From
10_state.md section 2, 70_reset_and_hazards.md section 3, 30_encoding.md section 5. -/
def Obligations.StepRunsTheDecodedCommand : Prop :=
  ∀ (s : State) (code : List Byte) (hdr : Hdr) (met : Met) (phy : Phy) (rest : List HostMove) (i : Instr),
    decodeBytes code = .ok i →
    (∀ n, s.script = .issue code (.at n) hdr met phy :: rest →
      step s = exec i { s with script := rest, cmd := ⟨code, n, hdr, met, phy⟩ })
    ∧ (s.script = .issue code .carry hdr met phy :: rest →
      step s = exec i { s with script := rest, cmd := ⟨code, s.cursor, hdr, met, phy⟩ })

/-- The model's choice of log 5: if the bytes of the host's next command do not decode, the step is refused with the
decoder's reason. From 30_encoding.md section 3. -/
def Obligations.StepRefusesWhatIsNoCode : Prop :=
  ∀ (s : State) (code : List Byte) (c : CurSource) (hdr : Hdr) (met : Met) (phy : Phy) (rest : List HostMove)
    (e : CodeError), s.script = .issue code c hdr met phy :: rest → decodeBytes code = .error e →
    step s = .refused (.noCommandCode e)

/-- The model's choice of log 8: a step from a state with an empty script answers the same state. From
70_reset_and_hazards.md section 1. -/
def Obligations.WaitingChangesNothing : Prop :=
  ∀ s : State, s.script = [] → step s = .next s

/-- If the host's next move writes a byte at an address below BUF_LEN, the step completes, that address reads the byte,
every other address and field is unchanged but the script; at or above BUF_LEN the step is the fault hostBounds (the
model's choice, log 18). From 20_memory.md section 1, 20_memory.md section 6. -/
def Obligations.HostWriteStoresExactlyOneByte : Prop :=
  ∀ (s : State) (a : BitVec 32) (b : Byte) (rest : List HostMove), s.script = .write a b :: rest →
    (a.toNat < s.bufLen.toNat → ∃ t, step s = .next t ∧ t.byteAt a.toNat = b
      ∧ (∀ x, x ≠ a.toNat → t.byteAt x = s.byteAt x)
      ∧ t = { s with script := rest, buf := t.buf })
    ∧ (s.bufLen.toNat ≤ a.toNat → step s = .fault (.hostBounds a))

/-- If the decoder reads the table word as i, the step after withFetchWord is exec of i on the state with the word's
bytes as the code on the port; nothing else differs. From 30_encoding.md section 3, 10_state.md section 2. -/
def Obligations.FetchWordIsTheNextCommand : Prop :=
  ∀ (s : State) (nbits w : Nat) (i : Instr), decodeTableWord nbits w = some i →
    step (s.withFetchWord nbits w) = exec i { s with cmd := { s.cmd with code := tableBytes nbits w } }

/-- For every step that answers a next state: BUF_LEN is unchanged, and an address that reads differently afterwards is
the target of the host's write or lies in the admitted window of a command that decodes to ENCODE. From 20_memory.md
section 4, 20_memory.md section 1. -/
def Obligations.OnlyEncodeAndTheHostWriteTheBuffer : Prop :=
  ∀ s t : State, step s = .next t → t.bufLen = s.bufLen
    ∧ ∀ x, t.byteAt x ≠ s.byteAt x →
      (∃ a b rest, s.script = .write a b :: rest ∧ a.toNat = x)
      ∨ ∃ code c hdr met phy rest, s.script = .issue code c hdr met phy :: rest ∧ decodeBytes code = .ok .encode
        ∧ t.cmd.cur.toNat ≤ x ∧ x < t.cmd.cur.toNat + 28 ∧ t.cmd.cur.toNat + 28 ≤ s.bufLen.toNat

/-- op 11 decodes to the reserved code, and exec of it is the refusal reservedCommand in every state: no next state, so
no no-op and no response. Rule R65. -/
def Obligations.ReservedCodeIsRefused : Prop :=
  decodeBytes [0x03#8] = .ok .reservedOp3 ∧ ∀ s : State, exec .reservedOp3 s = .refused .reservedCommand

/-- SHB_WIRE is the table's row for the wire format; the spec gives it no operation ("There are no other operations"),
and exec of it is the refusal wireFormIsNoCommand. From 00_scope.md section 1, 30_encoding.md section 1. -/
def Obligations.WireFormatIsNoCommand : Prop :=
  ∀ (w : WireForm) (s : State), exec (.shbWire w) s = .refused .wireFormIsNoCommand

/-- For every instruction and state, exec answers a next state exactly if the instruction is SIZE, ENCODE or DECODE;
SIZE always answers 28. R2 says that there are these three operations; that ENCODE and DECODE answer a next state
also where the window does not fit is log 10, and that the other two rows are refused is logs 6 and 7. From R2. -/
def Obligations.ExactlyThreeOperations : Prop :=
  (∀ (i : Instr) (s : State), (∃ t, exec i s = .next t) ↔ (i = .size ∨ i = .encode ∨ i = .decode))
    ∧ ∀ s : State, ∃ t, exec .size s = .next t ∧ t.res = some (.size 28#32)

/-- Two states with the same command, buffer length, window bytes and free values to come get the same response and the
same window bytes from any instruction that completes, whatever else they hold; the response does not depend on the
free values (log 1). Rule R13. -/
def Obligations.ResultDependsOnOperandsAndWindowOnly : Prop :=
  ∀ (i : Instr) (s₁ s₂ t₁ t₂ : State), s₁.cmd = s₂.cmd → s₁.bufLen = s₂.bufLen →
    (∀ k < 28, s₁.byteAt (s₁.cmd.cur.toNat + k) = s₂.byteAt (s₁.cmd.cur.toNat + k)) →
    exec i s₁ = .next t₁ → exec i s₂ = .next t₂ →
    t₁.res = t₂.res
    ∧ (s₁.draws = s₂.draws →
        ∀ k < 28, t₁.byteAt (s₁.cmd.cur.toNat + k) = t₂.byteAt (s₁.cmd.cur.toNat + k))

/-- SIZE answers the same whatever stands on the port; DECODE gives, for any code, HDR, MET and PHY on the port, the
same next state but for those operands themselves. Rule R16. -/
def Obligations.UnreadOperandsHaveNoEffect : Prop :=
  (∀ (s : State) (c : Command),
      exec .size { s with cmd := c } = .next { s with cmd := c, res := some (.size 28#32) })
    ∧ ∀ (s : State) (code : List Byte) (hdr : Hdr) (met : Met) (phy : Phy), ∃ t, exec .decode s = .next t
      ∧ exec .decode { s with cmd := ⟨code, s.cmd.cur, hdr, met, phy⟩ }
          = .next { t with cmd := ⟨code, s.cmd.cur, hdr, met, phy⟩ }

/-- At reset there is no response, no mark, no move; a step waits; SIZE answers 28, and ENCODE and DECODE complete with
the buffer length and cursor the model starts with (logs 2, 4, 8). From 70_reset_and_hazards.md section 1. -/
def Obligations.ResetIsIdle : Prop :=
  State.reset.res = none ∧ State.reset.faulted = false ∧ step State.reset = .next State.reset
    ∧ (∃ t, exec .size State.reset = .next t ∧ t.res = some (.size 28#32))
    ∧ (∃ t, exec .encode State.reset = .next t ∧ t.res = some (.encode 28#32 28#32))
    ∧ ∃ t d, exec .decode State.reset = .next t ∧ t.res = some (.decode d 28#32 28#32)

/-- With an admitted window DECODE returns (b20 * 256 + b21) & 0x7FFF; after ENCODE of a speed s it returns s & 0x7FFE,
equal to s exactly for even s from 0 up; a negative s comes back as at least 16384, or below 16384 if s < -16384.
Rule R132. -/
def Obligations.DecodedSpeedIsTheRawField : Prop :=
  (∀ s : State, s.windowFits → ∃ t d, exec .decode s = .next t
      ∧ t.res = some (.decode d 28#32 (s.cmd.cur + 28#32))
      ∧ d.speed.toNat = ((s.byteAt (s.cmd.cur.toNat + 20)).toNat * 256
          + (s.byteAt (s.cmd.cur.toNat + 21)).toNat) &&& 0x7FFF)
    ∧ ∀ s : State, s.windowFits → ∃ t u d, exec .encode s = .next t ∧ exec .decode t = .next u
      ∧ u.res = some (.decode d 28#32 (s.cmd.cur + 28#32))
      ∧ d.speed = s.cmd.hdr.speed &&& 0x7FFE#16
      ∧ (d.speed = s.cmd.hdr.speed ↔ s.cmd.hdr.speed.toInt % 2 = 0 ∧ 0 ≤ s.cmd.hdr.speed.toInt)
      ∧ (s.cmd.hdr.speed.toInt < 0 → -16384 ≤ s.cmd.hdr.speed.toInt → 16384 ≤ d.speed.toNat)
      ∧ (s.cmd.hdr.speed.toInt < -16384 → d.speed.toNat < 16384)

/-- With an admitted window ENCODE completes, DECODE of its result completes, returns address, timestamp, latitude,
longitude, accuracy and heading as given, the speed masked, the quantised ratios and level where both collaborators
are present and the quantisers give values, and leaves the buffer. The spec marks this law as derived. From
45_decode.md, 44_encode.md, 41_packer_byteorder.md section 3. -/
def Obligations.RoundTripReturnsTheExactFields : Prop :=
  ∀ s : State, s.windowFits → ∃ t u d, exec .encode s = .next t ∧ exec .decode t = .next u
    ∧ u.res = some (.decode d 28#32 (s.cmd.cur + 28#32)) ∧ u.buf = t.buf
    ∧ d.address = s.cmd.hdr.address ∧ d.timestamp = s.cmd.hdr.timestamp ∧ d.latitude = s.cmd.hdr.latitude
    ∧ d.longitude = s.cmd.hdr.longitude ∧ d.positionAccuracy = s.cmd.hdr.positionAccuracy
    ∧ d.heading = s.cmd.hdr.heading ∧ d.speed = s.cmd.hdr.speed &&& 0x7FFE#16
    ∧ (s.cmd.met.present = true ∧ s.cmd.phy.present = true →
        (∀ q, qCbr0 params s.cmd.met.cbr0 = some q → d.cbr0 = dqCbr q)
        ∧ (∀ q, qCbr1 params s.cmd.met.cbr1 = some q → d.cbr1 = dqCbr q)
        ∧ ∀ l, qTxp params s.cmd.phy.txPower = some l → d.txPowerLevel.toNat = l)

/-- With an admitted window, DECODE and then ENCODE of the returned fields, ratios and level at the same cursor writes
the same bytes but for bit 0 of byte 21, bits 7 to 5 of byte 26 and byte 27, which become 0. The spec marks this law
as derived. From 45_decode.md, 43_cbr_txpower_quantizer.md section 5. -/
def Obligations.DecodeThenEncodeIsCanonical : Prop :=
  ∀ s : State, s.windowFits → ∃ t d, exec .decode s = .next t
    ∧ t.res = some (.decode d 28#32 (s.cmd.cur + 28#32))
    ∧ ∀ (x : BitVec 64) (code : List Byte), fpFinite x = true → val x = (d.txPowerLevel.toNat : ℚ) →
      ∃ u, exec .encode
          { t with
            cmd :=
              { code := code
                cur := s.cmd.cur
                hdr := ⟨d.address, d.timestamp, d.latitude, d.longitude, d.speed, d.positionAccuracy, d.heading⟩
                met := ⟨true, d.cbr0, d.cbr1⟩
                phy := ⟨true, x⟩ } } = .next u
        ∧ (∀ k < 28, k ≠ 21 → k ≠ 26 → k ≠ 27 →
            u.byteAt (s.cmd.cur.toNat + k) = s.byteAt (s.cmd.cur.toNat + k))
        ∧ u.byteAt (s.cmd.cur.toNat + 21) = s.byteAt (s.cmd.cur.toNat + 21) &&& 0xFE#8
        ∧ u.byteAt (s.cmd.cur.toNat + 26) = s.byteAt (s.cmd.cur.toNat + 26) &&& 0x1F#8
        ∧ u.byteAt (s.cmd.cur.toNat + 27) = 0x00#8

/-- Two states with the same command and free values to come, whatever their buffers, get the same 28 window bytes; and
where no byte is unspecified, ENCODE repeated at once leaves every byte of the buffer as it is. The spec marks this
law as derived. From 44_encode.md, 20_memory.md section 4. -/
def Obligations.RepeatedEncodeWritesTheSameBytes : Prop :=
  (∀ s₁ s₂ : State, s₁.cmd = s₂.cmd → s₁.draws = s₂.draws → s₁.windowFits → s₂.windowFits →
      ∃ t₁ t₂, exec .encode s₁ = .next t₁ ∧ exec .encode s₂ = .next t₂
        ∧ ∀ k < 28, t₁.byteAt (s₁.cmd.cur.toNat + k) = t₂.byteAt (s₁.cmd.cur.toNat + k))
    ∧ ∀ s : State, s.windowFits →
      (s.cmd.extensionLive = true → qCbr0 params s.cmd.met.cbr0 ≠ none ∧ qCbr1 params s.cmd.met.cbr1 ≠ none
        ∧ qTxp params s.cmd.phy.txPower ≠ none) →
      ∃ t u, exec .encode s = .next t ∧ exec .encode t = .next u ∧ ∀ a, u.byteAt a = t.byteAt a

/-- For every pattern with sign s, exponent field E and fraction F: zero, subnormal, normal, infinity or NaN as the
table says, with value 0, (-1)^s * F * 2^-1074 or (-1)^s * (2^52 + F) * 2^(E-1075). Rule R100. -/
def Obligations.BinaryPatternsHaveTheirValues : Prop :=
  ∀ x : BitVec 64,
    let s := (x.extractLsb' 63 1).toNat
    let e := (x.extractLsb' 52 11).toNat
    let f := (x.extractLsb' 0 52).toNat
    (e = 0 ∧ f = 0 → fpClass x = .zero ∧ val x = 0)
    ∧ (e = 0 ∧ f ≠ 0 → fpClass x = .subnormal ∧ val x = (-1 : ℚ) ^ s * f * (2 : ℚ) ^ (-1074 : Int))
    ∧ (1 ≤ e ∧ e ≤ 2046 →
        fpClass x = .normal ∧ val x = (-1 : ℚ) ^ s * (2 ^ 52 + f) * (2 : ℚ) ^ ((e : Int) - 1075))
    ∧ (e = 2047 ∧ f = 0 → fpClass x = .infinity)
    ∧ (e = 2047 ∧ f ≠ 0 → fpClass x = .nan)

/-- For every rational num/den: 0 gives +0; the result is never NaN; a finite result is at least as near as every finite
pattern, and where another value is equally near its significand is even; it is infinite, with the sign of num,
exactly from 2^1024 - 2^970 on; and a nonzero binary64 value is its own rounding. Rule R101. -/
def Obligations.RneRoundsToNearestEven : Prop :=
  (∀ (num : Int) (den : Nat), 0 < den →
      (num = 0 → rne64 num den = 0#64)
      ∧ fpClass (rne64 num den) ≠ .nan
      ∧ (fpFinite (rne64 num den) = true → ∀ y, fpFinite y = true →
          |val (rne64 num den) - (num : ℚ) / den| ≤ |val y - (num : ℚ) / den|
          ∧ (|val (rne64 num den) - (num : ℚ) / den| = |val y - (num : ℚ) / den| → val y ≠ val (rne64 num den) →
              fpFrac (rne64 num den) % 2 = 0))
      ∧ (fpFinite (rne64 num den) = false ↔ (2 : ℚ) ^ 1024 - (2 : ℚ) ^ 970 ≤ |(num : ℚ) / den|)
      ∧ (fpFinite (rne64 num den) = false → fpSign (rne64 num den) = decide (num < 0)))
    ∧ ∀ x, fpFinite x = true → val x ≠ 0 → rne64 (units x) one64 = x

/-- For every byte b the result is finite, in [0, 1], strictly nearer to b/255 than every pattern of another value,
equal to it only for 0 and 255 (whose patterns are given), below it for 143 bytes and above it for 111; the two
examples hold. Rule R108. -/
def Obligations.DecodedRatioIsTheNearestBinary64 : Prop :=
  (∀ b : Byte, fpFinite (dqCbr b) = true ∧ 0 ≤ val (dqCbr b) ∧ val (dqCbr b) ≤ 1
      ∧ (∀ y, fpFinite y = true → val y ≠ val (dqCbr b) →
          |val (dqCbr b) - (b.toNat : ℚ) / 255| < |val y - (b.toNat : ℚ) / 255|)
      ∧ (val (dqCbr b) = (b.toNat : ℚ) / 255 ↔ b = 0#8 ∨ b = 255#8))
    ∧ dqCbr 0#8 = 0#64 ∧ dqCbr 255#8 = 0x3FF0000000000000#64
    ∧ dqCbr 127#8 = 0x3FDFDFDFDFDFDFE0#64 ∧ dqCbr 204#8 = 0x3FE999999999999A#64
    ∧ ((List.range 256).countP fun b => decide (units (dqCbr (BitVec.ofNat 8 b)) * 255 < b * one64)) = 143
    ∧ ((List.range 256).countP fun b => decide (b * one64 < units (dqCbr (BitVec.ofNat 8 b)) * 255)) = 111

/-- For every finite operand Q_CBR0 gives a byte: floor of RNE64(clamp(val, 0, 1) * 255); 0 at or below 0, 255 from 1 on
and never below 1; the largest value below 1 gives 254, 0.5 gives 127. Rule R105. -/
def Obligations.HopZeroIsClampedThenFloored : Prop :=
  (∀ x, fpFinite x = true → ∃ b, qCbr0 params x = some b
      ∧ (b.toNat : Int) = ⌊val (rne64 (min (max (units x) 0) one64 * 255) one64)⌋
      ∧ (val x ≤ 0 → b = 0#8) ∧ (1 ≤ val x → b = 255#8) ∧ (val x < 1 → b ≠ 255#8))
    ∧ qCbr0 params 0x3FEFFFFFFFFFFFFF#64 = some 254#8 ∧ qCbr0 params 0x3FE0000000000000#64 = some 127#8

/-- For every finite operand whose product stays finite Q_CBR1 gives floor(RNE64(val * 255)) mod 256; on [0, 1] it is
Q_CBR0 (an inference the spec marks as its own); a small negative ratio gives 255; the corner cases of the rule
hold. From 43_cbr_txpower_quantizer.md section 2. -/
def Obligations.HopOneIsNotClampedAndWraps : Prop :=
  (∀ x, fpFinite x = true → fpFinite (rne64 (units x * 255) one64) = true → ∃ b, qCbr1 params x = some b
      ∧ (b.toNat : Int) = ⌊val (rne64 (units x * 255) one64)⌋ % 256)
    ∧ (∀ x, fpFinite x = true → 0 ≤ val x → val x ≤ 1 → qCbr1 params x = qCbr0 params x)
    ∧ (∀ x, fpFinite x = true → -1 ≤ 255 * val x → val x < 0 → qCbr1 params x = some 255#8)
    ∧ qCbr1 params 0x3FF0000000000000#64 = some 255#8 ∧ qCbr1 params 0x3FF8000000000000#64 = some 126#8
    ∧ qCbr1 params 0x4000000000000000#64 = some 254#8 ∧ qCbr1 params 0x3FF0101010101010#64 = some 0#8
    ∧ qCbr1 params 0x4059000000000000#64 = some 156#8 ∧ qCbr1 params 0xBFB999999999999A#64 = some 230#8
    ∧ qCbr1 params 0xBFE0000000000000#64 = some 128#8 ∧ qCbr1 params 0xBFF0000000000000#64 = some 1#8
    ∧ qCbr1 params 0x3FE999999999999A#64 = some 204#8

/-- NaN is unspecified on all three paths; +Inf gives 255 and 31, -Inf gives 0 and 0, and both are unspecified on hop 1;
a finite operand is unspecified only on hop 1 and exactly if its rounded product is infinite; ENCODE with any
operands and an admitted window completes, leaves the fault mark as it was, and leaves byte 26 below 32 and byte 27
zero. The other bytes of the window are those of ExactFieldsTravelBitForBit, AccuracyAndSpeedShareOneField and
ExtensionIsLiveOnlyWithBothCollaborators, so R103 is stated here in part only. From R103. -/
def Obligations.NonFiniteOperandsStillComplete : Prop :=
  (∀ x, fpClass x = .nan → qCbr0 params x = none ∧ qCbr1 params x = none ∧ qTxp params x = none)
    ∧ qCbr0 params 0x7FF0000000000000#64 = some 255#8 ∧ qCbr1 params 0x7FF0000000000000#64 = none
    ∧ qTxp params 0x7FF0000000000000#64 = some 31
    ∧ qCbr0 params 0xFFF0000000000000#64 = some 0#8 ∧ qCbr1 params 0xFFF0000000000000#64 = none
    ∧ qTxp params 0xFFF0000000000000#64 = some 0
    ∧ (∀ x, fpFinite x = true → qCbr0 params x ≠ none ∧ qTxp params x ≠ none
        ∧ (qCbr1 params x = none ↔ fpFinite (rne64 (units x * 255) one64) = false))
    ∧ ∀ s : State, s.windowFits → ∃ t, exec .encode s = .next t ∧ t.faulted = s.faulted
      ∧ (t.byteAt (s.cmd.cur.toNat + 26)).toNat < 32 ∧ t.byteAt (s.cmd.cur.toNat + 27) = 0x00#8

/-- For a finite r in [0, 1] and its byte b: b - 2^-46 <= 255 r < b + 1, |b/255 - r| < 1/255, and |DQ_CBR(b) - r| <
1/255 + 2^-54. The spec marks these laws as derived. From 43_cbr_txpower_quantizer.md section 3. -/
def Obligations.CbrQuantisationIsWithinOneStep : Prop :=
  ∀ x, fpFinite x = true → 0 ≤ val x → val x ≤ 1 → ∃ b, qCbr0 params x = some b ∧ qCbr1 params x = some b
    ∧ (b.toNat : ℚ) - 1 / 2 ^ 46 ≤ 255 * val x ∧ 255 * val x < (b.toNat : ℚ) + 1
    ∧ |(b.toNat : ℚ) / 255 - val x| < 1 / 255
    ∧ |val (dqCbr b) - val x| < 1 / 255 + 1 / 2 ^ 54

/-- If val x <= val y for finite x and y then Q_CBR0 gives bytes in that order, and Q_CBR1 does so for both in [0, 1]; a
greater byte decodes to a strictly greater ratio. The spec marks these laws as derived. From
43_cbr_txpower_quantizer.md section 3. -/
def Obligations.CbrQuantiserIsMonotone : Prop :=
  (∀ x y, fpFinite x = true → fpFinite y = true → val x ≤ val y →
      ∃ a b, qCbr0 params x = some a ∧ qCbr0 params y = some b ∧ a.toNat ≤ b.toNat
        ∧ (0 ≤ val x → val y ≤ 1 → qCbr1 params x = some a ∧ qCbr1 params y = some b))
    ∧ ∀ a b : Byte, a.toNat < b.toNat → val (dqCbr a) < val (dqCbr b)

/-- For every byte b, Q_CBR0 and Q_CBR1 of DQ_CBR(b) are b under the rounded product. The spec marks this law as
derived. From 43_cbr_txpower_quantizer.md section 5. -/
def Obligations.ReencodingReproducesEveryCbrByte : Prop :=
  ∀ b : Byte, qCbr0 params (dqCbr b) = some b ∧ qCbr1 params (dqCbr b) = some b

/-- For every finite power v: below 1/2 the level is 0, from k - 1/2 up to k + 1/2 it is k for k from 1 to 30, from 30.5
on it is 31; -5, 0, 17.4, 31 and 50 give 0, 0, 17, 31 and 31. Rule R110. -/
def Obligations.TransmitPowerIsRoundedThenClamped : Prop :=
  (∀ x, fpFinite x = true →
      (val x < 1 / 2 → qTxp params x = some 0)
      ∧ (∀ k : Nat, 1 ≤ k → k ≤ 30 → (k : ℚ) - 1 / 2 ≤ val x → val x < (k : ℚ) + 1 / 2 → qTxp params x = some k)
      ∧ (61 / 2 ≤ val x → qTxp params x = some 31))
    ∧ qTxp params 0xC014000000000000#64 = some 0 ∧ qTxp params 0x0000000000000000#64 = some 0
    ∧ qTxp params 0x4031666666666666#64 = some 17 ∧ qTxp params 0x403F000000000000#64 = some 31
    ∧ qTxp params 0x4049000000000000#64 = some 31

/-- For every q in units of 2^-1074 (log 13): from 0 up it is floor(q + 1/2), below 0 it is -floor(-q + 1/2), and this
is the rounding the machine runs with. Rule R111. -/
def Obligations.RoundHalfAwayIsExact : Prop :=
  ∀ q : Int,
    (0 ≤ q → roundHalfAway q = ⌊(q : ℚ) / one64 + 1 / 2⌋)
    ∧ (q < 0 → roundHalfAway q = -⌊-((q : ℚ) / one64) + 1 / 2⌋)
    ∧ |(roundHalfAway q : ℚ) - (q : ℚ) / one64| ≤ 1 / 2
    ∧ roundNearest params.txpTies q = roundHalfAway q

/-- PUT_BE16, PUT_BE32, GET_BE16, GET_BE32 on the values of the bytes, and PUT_BYTES8, GET_BYTES8 byte by byte. Rule
R72, R73, R74, R75, R76, R77. -/
def Obligations.ConverterIsBigEndian : Prop :=
  (∀ v : BitVec 16, (putBe16 v).toList = [BitVec.ofNat 8 (v.toNat / 256), BitVec.ofNat 8 v.toNat])
    ∧ (∀ v : BitVec 32, (putBe32 v).toList = [BitVec.ofNat 8 (v.toNat / 2 ^ 24), BitVec.ofNat 8 (v.toNat / 2 ^ 16),
        BitVec.ofNat 8 (v.toNat / 2 ^ 8), BitVec.ofNat 8 v.toNat])
    ∧ (∀ bs : Vector Byte 2, (getBe16 bs).toNat = bs[0].toNat * 256 + bs[1].toNat)
    ∧ (∀ bs : Vector Byte 4, (getBe32 bs).toNat
        = bs[0].toNat * 2 ^ 24 + bs[1].toNat * 2 ^ 16 + bs[2].toNat * 2 ^ 8 + bs[3].toNat)
    ∧ (∀ (a : BitVec 64) (i : Fin 8), (putBytes8 a)[i] = a.extractLsb' (56 - 8 * i) 8)
    ∧ ∀ (bs : Vector Byte 8) (i : Fin 8), (getBytes8 bs).extractLsb' (56 - 8 * i) 8 = bs[i]

/-- GET after PUT and PUT after GET are the identity for BE16, BE32 and BYTES8. The spec marks these laws as derived.
From 41_packer_byteorder.md section 3. -/
def Obligations.ConverterRoundTrips : Prop :=
  (∀ v, getBe16 (putBe16 v) = v) ∧ (∀ bs, putBe16 (getBe16 bs) = bs)
    ∧ (∀ v, getBe32 (putBe32 v) = v) ∧ (∀ bs, putBe32 (getBe32 bs) = bs)
    ∧ (∀ a, getBytes8 (putBytes8 a) = a) ∧ ∀ bs, putBytes8 (getBytes8 bs) = bs

/-- The packed field is acc * 2^15 + spd15; unpacking gives its bit 15 and its low 15 bits; the power byte is lvl for a
level up to 31 and always below 32; unpacking gives b & 0x1F. Rule R78, R79, R80, R81. -/
def Obligations.PackerFieldsOccupyTheirBits : Prop :=
  (∀ (acc : Bool) (spd15 : BitVec 15), (packPaispd acc spd15).toNat = acc.toNat * 2 ^ 15 + spd15.toNat)
    ∧ (∀ p : BitVec 16, (unpackPaispd p).1.toNat = p.toNat >>> 15 ∧ (unpackPaispd p).2.toNat = p.toNat &&& 0x7FFF)
    ∧ (∀ lvl : Nat, (packTxp lvl).toNat = lvl &&& 0x1F) ∧ (∀ lvl : Nat, lvl ≤ 31 → (packTxp lvl).toNat = lvl)
    ∧ ∀ b : Byte, (unpackTxp b).toNat = b.toNat &&& 0x1F

/-- UNPACK after PACK and PACK after UNPACK for PAISPD; UNPACK after PACK of a level up to 31, and PACK after UNPACK
masks the byte with 0x1F. The spec marks these laws as derived. From 41_packer_byteorder.md section 3. -/
def Obligations.PackerRoundTrips : Prop :=
  (∀ acc spd15, unpackPaispd (packPaispd acc spd15) = (acc, spd15))
    ∧ (∀ p, packPaispd (unpackPaispd p).1 (unpackPaispd p).2 = p)
    ∧ (∀ lvl, lvl ≤ 31 → (unpackTxp (packTxp lvl)).toNat = lvl)
    ∧ ∀ b : Byte, packTxp (unpackTxp b).toNat = b &&& 0x1F#8

/-- FX_TO_WIRE gives x for x >= 0 and x + 2^32 below; FX_FROM_WIRE gives u below 2^31 and u - 2^32 from there on; each
undoes the other for all 2^32 values. That they are inverse is R91's Law, which the spec marks as derived from R90.
From R90, R91. -/
def Obligations.CoordinatesKeepTheirSign : Prop :=
  (∀ x : BitVec 32, ((fxToWire x).toNat : Int) = if 0 ≤ x.toInt then x.toInt else x.toInt + 2 ^ 32)
    ∧ (∀ u : BitVec 32, (fxFromWire u).toInt = if u.toNat < 2 ^ 31 then (u.toNat : Int) else (u.toNat : Int) - 2 ^ 32)
    ∧ (∀ x, fxFromWire (fxToWire x) = x) ∧ ∀ u, fxToWire (fxFromWire u) = u

/-- For every 16-bit speed the packed speed is the low 15 bits of floor(speed/2) * 2, which is u16(speed) & 0x7FFE and {
speed[14:1], 0 }, even and at most 32766; the decode direction is zero-extension. The closed forms speed & 0x7FFE
and { speed[14:1], 0 } the spec marks as derived from the pseudocode of R93. From R93, R94. -/
def Obligations.SpeedScaleClearsTheLowBit : Prop :=
  (∀ v : BitVec 16, ((spdScale v).toNat : Int) = (Int.fdiv v.toInt 2 * 2) % 2 ^ 15
      ∧ (spdScale v).toNat = v.toNat &&& 0x7FFE ∧ spdScale v = v.extractLsb' 1 14 ++ 0#1
      ∧ (spdScale v).toNat % 2 = 0 ∧ (spdScale v).toNat ≤ 32766)
    ∧ ∀ w : BitVec 15, (spdUnscale w).toNat = w.toNat

/-- Even from 0 up: speed; odd from 0 up: speed - 1; even below 0: speed + 32768; odd below 0: speed - 1 + 32768. The
spec marks this table as derived. From 42_fixed_point_scaler.md section 3. -/
def Obligations.SpeedLossFollowsSignAndParity : Prop :=
  ∀ v : BitVec 16,
    (0 ≤ v.toInt → v.toInt % 2 = 0 → ((spdScale v).toNat : Int) = v.toInt)
    ∧ (0 ≤ v.toInt → v.toInt % 2 = 1 → ((spdScale v).toNat : Int) = v.toInt - 1)
    ∧ (v.toInt < 0 → v.toInt % 2 = 0 → ((spdScale v).toNat : Int) = v.toInt + 32768)
    ∧ (v.toInt < 0 → v.toInt % 2 = 1 → ((spdScale v).toNat : Int) = v.toInt - 1 + 32768)

/-- For every width n >= 16 and operand, SPD_SCALE is { speed[14:1], 0 }, and a 16-bit speed widened to n bits packs as
before. The spec marks this law as derived. From 42_fixed_point_scaler.md section 3. -/
def Obligations.SpeedScaleIsIndependentOfItsWidth : Prop :=
  ∀ n : Nat, 16 ≤ n →
    (∀ x : BitVec n, spdScale x = x.extractLsb' 1 14 ++ 0#1)
    ∧ ∀ v : BitVec 16, spdScale (v.signExtend n) = spdScale v
end

