-- ==== Sys2Proof/Laws/Memory.lean ====
section
/-! SUPPORT. What the buffer operations do: a read after a write, what a write leaves alone, and that every memory
operation keeps the canonical form and the bounds of the buffer. -/

namespace Sys2Proof.Machine

@[simp] theorem Mem.read_nil (a : Nat) : Mem.read [] a = unlistedByte := rfl

@[simp] theorem Mem.read_cons (c : Host.Cell) (m : Mem) (a : Nat) :
    Mem.read (c :: m) a = if c.1 = a then c.2 else Mem.read m a := rfl

theorem Mem.erase_cons (c : Host.Cell) (m : Mem) (a : Nat) :
    Mem.erase (c :: m) a = if c.1 = a then Mem.erase m a else c :: Mem.erase m a := by
  by_cases h : c.1 = a <;> simp [Mem.erase, h]

theorem Mem.mem_erase (m : Mem) (a : Nat) (c : Host.Cell) : c ∈ Mem.erase m a ↔ c ∈ m ∧ c.1 ≠ a := by
  simp [Mem.erase]

theorem Mem.read_erase (m : Mem) (a x : Nat) :
    (m.erase a).read x = if x = a then unlistedByte else m.read x := by
  induction m with
  | nil => simp [Mem.erase]
  | cons c m ih =>
    rw [Mem.erase_cons]
    by_cases hc : c.1 = a
    · by_cases hx : x = a
      · simpa [hc, hx] using ih
      · have : ¬ a = x := fun h => hx h.symm
        simpa [hc, hx, this] using ih
    · by_cases hx : x = a
      · subst hx; simpa [hc] using ih
      · simp [hc, hx, ih]

theorem Mem.read_insert (m : Mem) (a x : Nat) (b : Byte) (h : ∀ c ∈ m, c.1 ≠ a) :
    (Mem.insert a b m).read x = if x = a then b else m.read x := by
  induction m with
  | nil =>
    by_cases hx : x = a
    · simp [Mem.insert, hx]
    · have : ¬ a = x := fun h => hx h.symm
      simp [Mem.insert, hx, this]
  | cons c m ih =>
    have hc : c.1 ≠ a := h c (by simp)
    have ih := ih fun d hd => h d (by simp [hd])
    by_cases hlt : a < c.1
    · by_cases hx : x = a
      · simp [Mem.insert, hlt, hx]
      · have : ¬ a = x := fun h => hx h.symm
        simp [Mem.insert, hlt, hx, this]
    · by_cases hx : x = a
      · subst hx; simpa [Mem.insert, hlt, hc] using ih
      · simp [Mem.insert, hlt, hx, ih]

/-- A read after a write gives the byte written, and every other byte is left alone (R31). -/
theorem Mem.read_write (m : Mem) (a x : Nat) (b : Byte) :
    (m.write a b).read x = if x = a then b else m.read x := by
  unfold Mem.write
  split
  · next hb => rw [Mem.read_erase, hb]
  · rw [Mem.read_insert _ _ _ _ fun c hc => ((Mem.mem_erase m a c).1 hc).2, Mem.read_erase]
    by_cases hx : x = a <;> simp [hx]

/-- `MemWrite` (R32): the bytes in the window are those written, every other byte is left alone. -/
theorem Mem.read_writeBytes (bs : List Byte) (m : Mem) (a x : Nat) :
    (m.writeBytes a bs).read x = if h : a ≤ x ∧ x < a + bs.length then bs[x - a] else m.read x := by
  induction bs generalizing m a with
  | nil => simp [Mem.writeBytes]
  | cons b bs ih =>
    rw [Mem.writeBytes, ih, Mem.read_write]
    by_cases hx : x = a
    · subst hx; simp
    · by_cases hin : a + 1 ≤ x ∧ x < a + 1 + bs.length
      · have hk : x - a = (x - (a + 1)) + 1 := by omega
        have hout : a ≤ x ∧ x < a + (bs.length + 1) := by omega
        simp [hin, hout, hk]
      · have hout : ¬ (a ≤ x ∧ x < a + (b :: bs).length) := by rw [List.length_cons]; omega
        rw [dif_neg hin, if_neg hx, dif_neg hout]

theorem Mem.read_writeBytes_inside (bs : List Byte) (m : Mem) (a k : Nat) (hk : k < bs.length) :
    (m.writeBytes a bs).read (a + k) = bs[k] := by
  rw [Mem.read_writeBytes]
  simp [hk]

theorem Mem.read_writeBytes_outside (bs : List Byte) (m : Mem) (a x : Nat) (hx : x < a ∨ a + bs.length ≤ x) :
    (m.writeBytes a bs).read x = m.read x := by
  rw [Mem.read_writeBytes, dif_neg (by omega)]

theorem Mem.mem_insert (m : Mem) (a : Nat) (b : Byte) (c : Host.Cell) :
    c ∈ Mem.insert a b m ↔ c = (a, b) ∨ c ∈ m := by
  induction m with
  | nil => simp [Mem.insert]
  | cons d m ih =>
    by_cases h : a < d.1
    · simp [Mem.insert, h]
    · simp only [Mem.insert, h, if_false, List.mem_cons, ih]; tauto

theorem Mem.wf_erase (m : Mem) (a : Nat) (h : m.wf) : (m.erase a).wf :=
  ⟨h.1.filter _, fun c hc => h.2 c ((Mem.mem_erase m a c).1 hc).1⟩

theorem Mem.wf_insert (m : Mem) (a : Nat) (b : Byte) (h : m.wf) (ha : ∀ c ∈ m, c.1 ≠ a) (hb : b ≠ unlistedByte) :
    (Mem.insert a b m).wf := by
  refine ⟨?_, fun c hc => ?_⟩
  · have hp := h.1
    clear h hb
    induction m with
    | nil => simp [Mem.insert]
    | cons d m ih =>
      have hd : d.1 ≠ a := ha d (by simp)
      rw [List.pairwise_cons] at hp
      by_cases hlt : a < d.1
      · simp only [Mem.insert, hlt, if_true, List.pairwise_cons]
        refine ⟨fun c hc => ?_, hp⟩
        rcases List.mem_cons.1 hc with rfl | hc
        · exact hlt
        · exact hlt.trans (hp.1 c hc)
      · simp only [Mem.insert, hlt, if_false, List.pairwise_cons]
        refine ⟨fun c hc => ?_, ih (fun c hc => ha c (by simp [hc])) hp.2⟩
        rcases (Mem.mem_insert m a b c).1 hc with rfl | hc
        · exact lt_of_le_of_ne (not_lt.1 hlt) hd
        · exact hp.1 c hc
  · rcases (Mem.mem_insert m a b c).1 hc with rfl | hc
    · exact hb
    · exact h.2 c hc

/-- A byte write keeps the canonical form. -/
theorem Mem.wf_write (m : Mem) (a : Nat) (b : Byte) (h : m.wf) : (m.write a b).wf := by
  unfold Mem.write
  split
  · exact Mem.wf_erase m a h
  · next hb => exact Mem.wf_insert _ a b (Mem.wf_erase m a h) (fun c hc => ((Mem.mem_erase m a c).1 hc).2) hb

/-- `MemWrite` keeps the canonical form. -/
theorem Mem.wf_writeBytes (bs : List Byte) (m : Mem) (a : Nat) (h : m.wf) : (m.writeBytes a bs).wf := by
  induction bs generalizing m a with
  | nil => exact h
  | cons b bs ih => exact ih _ _ (Mem.wf_write m a b h)

/-- A byte write lists no address but its own and those listed before. -/
theorem Mem.mem_write (m : Mem) (a : Nat) (b : Byte) (c : Host.Cell) (h : c ∈ m.write a b) : c.1 = a ∨ c ∈ m := by
  unfold Mem.write at h
  split at h
  · exact .inr ((Mem.mem_erase m a c).1 h).1
  · rcases (Mem.mem_insert _ a b c).1 h with rfl | h
    · exact .inl rfl
    · exact .inr ((Mem.mem_erase m a c).1 h).1

/-- `MemWrite` lists no address but those of its window and those listed before. -/
theorem Mem.mem_writeBytes (bs : List Byte) (m : Mem) (a : Nat) (c : Host.Cell) (h : c ∈ m.writeBytes a bs) :
    (a ≤ c.1 ∧ c.1 < a + bs.length) ∨ c ∈ m := by
  induction bs generalizing m a with
  | nil => exact .inr h
  | cons b bs ih =>
    rcases ih (m.write a b) (a + 1) h with h | h
    · left; simp only [List.length_cons]; omega
    · rcases Mem.mem_write m a b c h with h | h
      · left; simp only [List.length_cons]; omega
      · exact .inr h

end Sys2Proof.Machine
end

