-- ==== Sys2Proof/Laws/State.lean ====
section
/-! SUPPORT. One lemma per field of State and per named update, so that no later proof unfolds a record update; and the
reads of a byte after each. -/

namespace Sys2Proof.Machine

@[simp] theorem State.memWrite_buf (s : State) (a : Nat) (bs : List Byte) : (s.memWrite a bs).buf = s.buf.writeBytes a bs := rfl
@[simp] theorem State.memWrite_bufLen (s : State) (a : Nat) (bs : List Byte) : (s.memWrite a bs).bufLen = s.bufLen := rfl
@[simp] theorem State.memWrite_cursor (s : State) (a : Nat) (bs : List Byte) : (s.memWrite a bs).cursor = s.cursor := rfl
@[simp] theorem State.memWrite_cmd (s : State) (a : Nat) (bs : List Byte) : (s.memWrite a bs).cmd = s.cmd := rfl
@[simp] theorem State.memWrite_res (s : State) (a : Nat) (bs : List Byte) : (s.memWrite a bs).res = s.res := rfl
@[simp] theorem State.memWrite_faulted (s : State) (a : Nat) (bs : List Byte) : (s.memWrite a bs).faulted = s.faulted := rfl
@[simp] theorem State.memWrite_faultRec (s : State) (a : Nat) (bs : List Byte) : (s.memWrite a bs).faultRec = s.faultRec := rfl
@[simp] theorem State.memWrite_script (s : State) (a : Nat) (bs : List Byte) : (s.memWrite a bs).script = s.script := rfl
@[simp] theorem State.memWrite_draws (s : State) (a : Nat) (bs : List Byte) : (s.memWrite a bs).draws = s.draws := rfl

@[simp] theorem State.respond_buf (s : State) (r : Response) : (s.respond r).buf = s.buf := rfl
@[simp] theorem State.respond_bufLen (s : State) (r : Response) : (s.respond r).bufLen = s.bufLen := rfl
@[simp] theorem State.respond_cursor (s : State) (r : Response) : (s.respond r).cursor = s.cursor := rfl
@[simp] theorem State.respond_cmd (s : State) (r : Response) : (s.respond r).cmd = s.cmd := rfl
@[simp] theorem State.respond_res (s : State) (r : Response) : (s.respond r).res = some r := rfl
@[simp] theorem State.respond_faulted (s : State) (r : Response) : (s.respond r).faulted = s.faulted := rfl
@[simp] theorem State.respond_faultRec (s : State) (r : Response) : (s.respond r).faultRec = s.faultRec := rfl
@[simp] theorem State.respond_script (s : State) (r : Response) : (s.respond r).script = s.script := rfl
@[simp] theorem State.respond_draws (s : State) (r : Response) : (s.respond r).draws = s.draws := rfl

@[simp] theorem State.respondAdvancing_buf (s : State) (r : Response) (c : BitVec 32) : (s.respondAdvancing r c).buf = s.buf := rfl
@[simp] theorem State.respondAdvancing_bufLen (s : State) (r : Response) (c : BitVec 32) : (s.respondAdvancing r c).bufLen = s.bufLen := rfl
@[simp] theorem State.respondAdvancing_cursor (s : State) (r : Response) (c : BitVec 32) : (s.respondAdvancing r c).cursor = c := rfl
@[simp] theorem State.respondAdvancing_cmd (s : State) (r : Response) (c : BitVec 32) : (s.respondAdvancing r c).cmd = s.cmd := rfl
@[simp] theorem State.respondAdvancing_res (s : State) (r : Response) (c : BitVec 32) : (s.respondAdvancing r c).res = some r := rfl
@[simp] theorem State.respondAdvancing_faulted (s : State) (r : Response) (c : BitVec 32) : (s.respondAdvancing r c).faulted = s.faulted := rfl
@[simp] theorem State.respondAdvancing_faultRec (s : State) (r : Response) (c : BitVec 32) : (s.respondAdvancing r c).faultRec = s.faultRec := rfl
@[simp] theorem State.respondAdvancing_script (s : State) (r : Response) (c : BitVec 32) : (s.respondAdvancing r c).script = s.script := rfl
@[simp] theorem State.respondAdvancing_draws (s : State) (r : Response) (c : BitVec 32) : (s.respondAdvancing r c).draws = s.draws := rfl

@[simp] theorem State.raiseBufferBounds_buf (s : State) (op : WindowOp) : (s.raiseBufferBounds op).buf = s.buf := rfl
@[simp] theorem State.raiseBufferBounds_bufLen (s : State) (op : WindowOp) : (s.raiseBufferBounds op).bufLen = s.bufLen := rfl
@[simp] theorem State.raiseBufferBounds_cursor (s : State) (op : WindowOp) : (s.raiseBufferBounds op).cursor = s.cursor := rfl
@[simp] theorem State.raiseBufferBounds_cmd (s : State) (op : WindowOp) : (s.raiseBufferBounds op).cmd = s.cmd := rfl
@[simp] theorem State.raiseBufferBounds_res (s : State) (op : WindowOp) : (s.raiseBufferBounds op).res = none := rfl
@[simp] theorem State.raiseBufferBounds_faulted (s : State) (op : WindowOp) : (s.raiseBufferBounds op).faulted = true := rfl
@[simp] theorem State.raiseBufferBounds_faultRec (s : State) (op : WindowOp) : (s.raiseBufferBounds op).faultRec = some ⟨op, s.cmd.cur⟩ := rfl
@[simp] theorem State.raiseBufferBounds_script (s : State) (op : WindowOp) : (s.raiseBufferBounds op).script = s.script := rfl
@[simp] theorem State.raiseBufferBounds_draws (s : State) (op : WindowOp) : (s.raiseBufferBounds op).draws = s.draws := rfl

@[simp] theorem State.accept_buf (s : State) (code : List Byte) (c : CurSource) (h : Hdr) (m : Met) (p : Phy) :
    (s.accept code c h m p).buf = s.buf := rfl
@[simp] theorem State.accept_bufLen (s : State) (code : List Byte) (c : CurSource) (h : Hdr) (m : Met) (p : Phy) :
    (s.accept code c h m p).bufLen = s.bufLen := rfl
@[simp] theorem State.accept_cursor (s : State) (code : List Byte) (c : CurSource) (h : Hdr) (m : Met) (p : Phy) :
    (s.accept code c h m p).cursor = s.cursor := rfl
@[simp] theorem State.accept_res (s : State) (code : List Byte) (c : CurSource) (h : Hdr) (m : Met) (p : Phy) :
    (s.accept code c h m p).res = s.res := rfl
@[simp] theorem State.accept_faulted (s : State) (code : List Byte) (c : CurSource) (h : Hdr) (m : Met) (p : Phy) :
    (s.accept code c h m p).faulted = s.faulted := rfl
@[simp] theorem State.accept_faultRec (s : State) (code : List Byte) (c : CurSource) (h : Hdr) (m : Met) (p : Phy) :
    (s.accept code c h m p).faultRec = s.faultRec := rfl
@[simp] theorem State.accept_script (s : State) (code : List Byte) (c : CurSource) (h : Hdr) (m : Met) (p : Phy) :
    (s.accept code c h m p).script = s.script := rfl
@[simp] theorem State.accept_draws (s : State) (code : List Byte) (c : CurSource) (h : Hdr) (m : Met) (p : Phy) :
    (s.accept code c h m p).draws = s.draws := rfl

@[simp] theorem State.accept_cmd_at (s : State) (code : List Byte) (n : BitVec 32) (h : Hdr) (m : Met) (p : Phy) :
    (s.accept code (.at n) h m p).cmd = ⟨code, n, h, m, p⟩ := rfl

@[simp] theorem State.accept_cmd_carry (s : State) (code : List Byte) (h : Hdr) (m : Met) (p : Phy) :
    (s.accept code .carry h m p).cmd = ⟨code, s.cursor, h, m, p⟩ := rfl

@[simp] theorem State.withCode_buf (s : State) (code : List Byte) : (s.withCode code).buf = s.buf := rfl
@[simp] theorem State.withCode_bufLen (s : State) (code : List Byte) : (s.withCode code).bufLen = s.bufLen := rfl
@[simp] theorem State.withCode_cursor (s : State) (code : List Byte) : (s.withCode code).cursor = s.cursor := rfl
@[simp] theorem State.withCode_cmd (s : State) (code : List Byte) : (s.withCode code).cmd = s.cmd := rfl
@[simp] theorem State.withCode_res (s : State) (code : List Byte) : (s.withCode code).res = s.res := rfl
@[simp] theorem State.withCode_faulted (s : State) (code : List Byte) : (s.withCode code).faulted = s.faulted := rfl
@[simp] theorem State.withCode_faultRec (s : State) (code : List Byte) : (s.withCode code).faultRec = s.faultRec := rfl
@[simp] theorem State.withCode_script (s : State) (code : List Byte) : (s.withCode code).script = .issue code (.at s.cmd.cur) s.cmd.hdr s.cmd.met s.cmd.phy :: s.script := rfl
@[simp] theorem State.withCode_draws (s : State) (code : List Byte) : (s.withCode code).draws = s.draws := rfl

@[simp] theorem State.byteAt_memWrite (s : State) (a x : Nat) (bs : List Byte) :
    (s.memWrite a bs).byteAt x = (s.buf.writeBytes a bs).read x := rfl

@[simp] theorem State.byteAt_respond (s : State) (r : Response) (x : Nat) : (s.respond r).byteAt x = s.byteAt x := rfl

@[simp] theorem State.byteAt_respondAdvancing (s : State) (r : Response) (c : BitVec 32) (x : Nat) :
    (s.respondAdvancing r c).byteAt x = s.byteAt x := rfl

@[simp] theorem State.byteAt_raiseBufferBounds (s : State) (op : WindowOp) (x : Nat) :
    (s.raiseBufferBounds op).byteAt x = s.byteAt x := rfl

@[simp] theorem State.memRead_getElem (s : State) (a n k : Nat) (h : k < n) : (s.memRead a n)[k] = s.byteAt (a + k) := by
  simp [State.memRead]

end Sys2Proof.Machine
end

