-- ==== Sys2Proof/Laws/Exec.lean ====
section
/-! SUPPORT. What each instruction can do, said once; the inversion of `exec` and of `step`. -/

namespace Sys2Proof.Machine

/-- Window admission in numbers (R33). -/
theorem State.windowFits_iff (s : State) : s.windowFits ↔ s.cmd.cur.toNat + 28 ≤ s.bufLen.toNat := Iff.rfl

/-- `SIZE` always completes (R69). -/
theorem exec_size (s : State) : exec .size s = .next (s.respond (.size 28#32)) := rfl

/-- `ENCODE` with an admitted window completes (R120). -/
theorem exec_encode_of_fits (s : State) (h : s.windowFits) : exec .encode s = .next (encodeAdmitted s) := if_pos h

/-- `ENCODE` without one takes `BufferBounds` (R145). -/
theorem exec_encode_of_short (s : State) (h : ¬ s.windowFits) :
    exec .encode s = .next (s.raiseBufferBounds .encode) := if_neg h

/-- `DECODE` with an admitted window completes (R130). -/
theorem exec_decode_of_fits (s : State) (h : s.windowFits) : exec .decode s = .next (decodeAdmitted s) := if_pos h

/-- `DECODE` without one takes `BufferBounds` (R145). -/
theorem exec_decode_of_short (s : State) (h : ¬ s.windowFits) :
    exec .decode s = .next (s.raiseBufferBounds .decode) := if_neg h

/-- Everything `exec` can answer. -/
theorem exec_next_cases {i : Instr} {s t : State} (h : exec i s = .next t) :
    (i = .size ∧ t = s.respond (.size 28#32))
    ∨ (i = .encode ∧ s.windowFits ∧ t = encodeAdmitted s)
    ∨ (i = .encode ∧ ¬ s.windowFits ∧ t = s.raiseBufferBounds .encode)
    ∨ (i = .decode ∧ s.windowFits ∧ t = decodeAdmitted s)
    ∨ (i = .decode ∧ ¬ s.windowFits ∧ t = s.raiseBufferBounds .decode) := by
  cases i with
  | size => exact .inl ⟨rfl, (Host.Outcome.next.inj h).symm⟩
  | encode =>
    by_cases hf : s.windowFits
    · rw [exec_encode_of_fits s hf] at h
      exact .inr (.inl ⟨rfl, hf, (Host.Outcome.next.inj h).symm⟩)
    · rw [exec_encode_of_short s hf] at h
      exact .inr (.inr (.inl ⟨rfl, hf, (Host.Outcome.next.inj h).symm⟩))
  | decode =>
    by_cases hf : s.windowFits
    · rw [exec_decode_of_fits s hf] at h
      exact .inr (.inr (.inr (.inl ⟨rfl, hf, (Host.Outcome.next.inj h).symm⟩)))
    · rw [exec_decode_of_short s hf] at h
      exact .inr (.inr (.inr (.inr ⟨rfl, hf, (Host.Outcome.next.inj h).symm⟩)))
  | reservedOp3 => exact absurd h (by simp [exec, execReservedOp3])
  | shbWire w => exact absurd h (by simp [exec, execShbWire])

/-- Everything a step can do: wait, a host write inside the buffer, or a command of the table. -/
theorem step_next_cases {s t : State} (h : step s = .next t) :
    (s.script = [] ∧ t = s)
    ∨ (∃ a b rest, s.script = .write a b :: rest ∧ a.toNat < s.bufLen.toNat
        ∧ t = State.memWrite { s with script := rest } a.toNat [b])
    ∨ (∃ code c hdr met phy rest i, s.script = .issue code c hdr met phy :: rest ∧ decodeBytes code = .ok i
        ∧ exec i (State.accept { s with script := rest } code c hdr met phy) = .next t) := by
  unfold step hostStep at h
  split at h
  · next hs => exact .inl ⟨hs, (Host.Outcome.next.inj h).symm⟩
  · next a b rest hs =>
    unfold hostWrite at h
    split at h
    · next hlt => exact .inr (.inl ⟨a, b, rest, hs, hlt, (Host.Outcome.next.inj h).symm⟩)
    · exact absurd h (by simp)
  · next code c hdr met phy rest hs =>
    unfold runCode at h
    split at h
    · next i hi => exact .inr (.inr ⟨code, c, hdr, met, phy, rest, i, hs, hi, h⟩)
    · exact absurd h (by simp)

@[simp] theorem encodeAdmitted_buf (s : State) :
    (encodeAdmitted s).buf = s.buf.writeBytes s.cmd.cur.toNat (s.cmd.window params s.draws).toList := rfl
@[simp] theorem encodeAdmitted_bufLen (s : State) : (encodeAdmitted s).bufLen = s.bufLen := rfl
@[simp] theorem encodeAdmitted_cursor (s : State) : (encodeAdmitted s).cursor = s.curOut := rfl
@[simp] theorem encodeAdmitted_cmd (s : State) : (encodeAdmitted s).cmd = s.cmd := rfl
@[simp] theorem encodeAdmitted_res (s : State) : (encodeAdmitted s).res = some (.encode 28#32 s.curOut) := rfl
@[simp] theorem encodeAdmitted_faulted (s : State) : (encodeAdmitted s).faulted = s.faulted := rfl
@[simp] theorem encodeAdmitted_faultRec (s : State) : (encodeAdmitted s).faultRec = s.faultRec := rfl
@[simp] theorem encodeAdmitted_script (s : State) : (encodeAdmitted s).script = s.script := rfl
@[simp] theorem encodeAdmitted_draws (s : State) : (encodeAdmitted s).draws = s.draws + 3 := rfl

/-- Byte `k` of the window after `ENCODE` (R38, R120). -/
theorem encodeAdmitted_byteAt_inside (s : State) (k : Nat) (hk : k < 28) :
    (encodeAdmitted s).byteAt (s.cmd.cur.toNat + k) = (s.cmd.window params s.draws)[k] := by
  have h : k < (s.cmd.window params s.draws).toList.length := by simpa using hk
  simpa [State.byteAt] using Mem.read_writeBytes_inside _ s.buf s.cmd.cur.toNat k h

/-- Every byte outside the window after `ENCODE` (R40). -/
theorem encodeAdmitted_byteAt_outside (s : State) (x : Nat) (hx : x < s.cmd.cur.toNat ∨ s.cmd.cur.toNat + 28 ≤ x) :
    (encodeAdmitted s).byteAt x = s.byteAt x := by
  simpa [State.byteAt] using Mem.read_writeBytes_outside (s.cmd.window params s.draws).toList s.buf _ x (by simpa using hx)

/-- `cur_out` of an admitted window does not wrap (R25). -/
theorem State.curOut_toNat (s : State) (h : s.windowFits) : s.curOut.toNat = s.cmd.cur.toNat + 28 := by
  have hl := s.bufLen.isLt
  have : s.cmd.cur.toNat + 28 < 2 ^ 32 := lt_of_le_of_lt h hl
  simpa [State.curOut, BitVec.toNat_add] using this

end Sys2Proof.Machine
end

