-- ==== Sys2Proof/Laws/PerInstr.lean ====
section
/-! SUPPORT. Statements for all instructions, one lemma per constructor: how many bytes each code takes. -/

namespace Sys2Proof.Laws.CodeLength

/-- A command code takes one byte, a wire form 28 (30_encoding.md R51, R63). -/
def Statement (i : Sys2Proof.Instr) : Prop :=
  (Sys2Proof.encode i).length = match i with
    | .size => 1
    | .encode => 1
    | .decode => 1
    | .reservedOp3 => 1
    | .shbWire _ => 28

theorem size : Statement .size := rfl
theorem encode : Statement .encode := rfl
theorem decode : Statement .decode := rfl
theorem reservedOp3 : Statement .reservedOp3 := rfl
theorem shbWire (w : Sys2Proof.WireForm) : Statement (.shbWire w) := rfl

end Sys2Proof.Laws.CodeLength
end

