-- ==== Sys2Proof/Laws/Rounding.lean ====
section
/-! SUPPORT. The number format and `RNE64` of 43_cbr_txpower_quantizer.md, said once: the fields of a pattern built from
a sign and a magnitude, the value of a magnitude, and what the three helpers of R101 compute. -/

namespace Sys2Proof.Machine

theorem one64_pos : 0 < one64 := by unfold one64; positivity

/-- The value, in units, of the 63 low bits of a finite pattern (R100). -/
def magnitudeUnits (mag : Nat) : Nat :=
  if mag / 2 ^ 52 = 0 then mag % 2 ^ 52 else (2 ^ 52 + mag % 2 ^ 52) * 2 ^ (mag / 2 ^ 52 - 1)

section Fields
variable (s : Bool) (mag : Nat) (h : mag < 2 ^ 63)
include h

theorem pattern_toNat : (BitVec.ofBool s ++ BitVec.ofNat 63 mag).toNat = s.toNat * 2 ^ 63 + mag := by
  rw [BitVec.toNat_append, BitVec.toNat_ofBool, BitVec.toNat_ofNat, Nat.mod_eq_of_lt h,
    ← Nat.shiftLeft_add_eq_or_of_lt h, Nat.shiftLeft_eq]

omit h in
theorem fpSign_pattern : fpSign (BitVec.ofBool s ++ BitVec.ofNat 63 mag) = s := by
  rw [fpSign, BitVec.getLsbD_append]; simp

theorem fpExp_pattern : fpExp (BitVec.ofBool s ++ BitVec.ofNat 63 mag) = mag / 2 ^ 52 := by
  have := pattern_toNat s mag h
  rw [fpExp, BitVec.extractLsb'_toNat, this, Nat.shiftRight_eq_div_pow]
  cases s <;> simp only [Bool.toNat_false, Bool.toNat_true] <;> omega

theorem fpFrac_pattern : fpFrac (BitVec.ofBool s ++ BitVec.ofNat 63 mag) = mag % 2 ^ 52 := by
  have := pattern_toNat s mag h
  rw [fpFrac, BitVec.extractLsb'_toNat, this, Nat.shiftRight_eq_div_pow]
  cases s <;> simp only [Bool.toNat_false, Bool.toNat_true] <;> omega

theorem magUnits_pattern : magUnits (BitVec.ofBool s ++ BitVec.ofNat 63 mag) = magnitudeUnits mag := by
  rw [magUnits, magnitudeUnits, fpExp_pattern s mag h, fpFrac_pattern s mag h]

theorem units_pattern :
    units (BitVec.ofBool s ++ BitVec.ofNat 63 mag)
      = if s then -(magnitudeUnits mag : Int) else magnitudeUnits mag := by
  rw [units, magUnits_pattern s mag h, fpSign_pattern s mag]

end Fields

/-- `m` quanta of `2^(j - 1074)`: the place `rneMagnitude` gives the rounded value holds that value (R101). -/
theorem magnitudeUnits_quanta (j m : Nat) (hm : m ≤ 2 ^ 53) (hj : j = 0 ∨ 2 ^ 52 ≤ m) :
    magnitudeUnits (j * 2 ^ 52 + m) = m * 2 ^ j := by
  rcases Nat.lt_or_ge m (2 ^ 52) with hlt | hge
  · have hj : j = 0 := by omega
    subst hj
    have h1 : (0 * 2 ^ 52 + m) / 2 ^ 52 = 0 := by omega
    have h2 : (0 * 2 ^ 52 + m) % 2 ^ 52 = m := by omega
    simp only [magnitudeUnits, h1, h2, if_true, pow_zero, mul_one]
  · rcases Nat.lt_or_ge m (2 ^ 53) with hlt | heq
    · have h1 : (j * 2 ^ 52 + m) / 2 ^ 52 = j + 1 := by omega
      have h2 : (j * 2 ^ 52 + m) % 2 ^ 52 = m - 2 ^ 52 := by omega
      have h3 : 2 ^ 52 + (m - 2 ^ 52) = m := by omega
      simp only [magnitudeUnits, h1, h2, h3, Nat.add_one_ne_zero, if_false, Nat.add_sub_cancel]
    · have hm : m = 2 ^ 53 := by omega
      subst hm
      have h1 : (j * 2 ^ 52 + 2 ^ 53) / 2 ^ 52 = j + 2 := by omega
      have h2 : (j * 2 ^ 52 + 2 ^ 53) % 2 ^ 52 = 0 := by omega
      have h3 : j + 2 - 1 = j + 1 := by omega
      simp only [magnitudeUnits, h1, h2, h3]
      rw [if_neg (by omega), pow_succ 2 j]
      ring

/-- The integer nearest to `n / d`: at most half of `d` away. -/
theorem roundHalfEven_error (n d : Nat) (hd : 0 < d) :
    2 * n ≤ 2 * (roundHalfEven n d * d) + d ∧ 2 * (roundHalfEven n d * d) ≤ 2 * n + d := by
  have hdiv := Nat.div_add_mod n d
  have hmod := Nat.mod_lt n hd
  have hsucc : (n / d + 1) * d = d * (n / d) + d := by ring
  have hcomm : n / d * d = d * (n / d) := Nat.mul_comm _ _
  unfold roundHalfEven
  split
  · omega
  · split
    · rw [hsucc]; omega
    · split
      · omega
      · rw [hsucc]; omega

/-- At a tie the even neighbour is taken. -/
theorem roundHalfEven_tie (n d : Nat) (h : 2 * (n % d) = d) : roundHalfEven n d % 2 = 0 := by
  unfold roundHalfEven
  rw [if_neg (by omega), if_neg (by omega)]
  split <;> omega

/-- An exact quotient is not rounded. -/
theorem roundHalfEven_mul (m d : Nat) (hd : 0 < d) : roundHalfEven (m * d) d = m := by
  simp [roundHalfEven, hd]

/-- The comparison `floorLog2` makes is that of `2^e` with `n / d`. -/
theorem two_zpow_le_div_iff (n d : Nat) (hd : 0 < d) (e : Int) :
    d * 2 ^ e.toNat ≤ n * 2 ^ (-e).toNat ↔ (2 : ℚ) ^ e ≤ (n : ℚ) / d := by
  have hdq : (0 : ℚ) < d := by exact_mod_cast hd
  rw [le_div_iff₀ hdq]
  rcases le_total 0 e with he | he
  · obtain ⟨j, rfl⟩ := Int.eq_ofNat_of_zero_le he
    have : (-(j : Int)).toNat = 0 := by omega
    simp only [Int.toNat_natCast, this, pow_zero, mul_one, zpow_natCast]
    rw [← Nat.cast_le (α := ℚ)]
    push_cast
    rw [mul_comm]
  · obtain ⟨j, rfl⟩ : ∃ j : Nat, e = -(j : Int) := ⟨(-e).toNat, by omega⟩
    have : (-(j : Int)).toNat = 0 := by omega
    simp only [neg_neg, Int.toNat_natCast, this, pow_zero, mul_one, zpow_neg, zpow_natCast]
    rw [← Nat.cast_le (α := ℚ), inv_mul_le_iff₀ (by positivity)]
    push_cast
    rw [mul_comm (n : ℚ)]

/-- `2^e <= n/d < 2^(e+1)` for `e = floorLog2 n d` (R101). -/
theorem floorLog2_spec (n d : Nat) (hn : 0 < n) (hd : 0 < d) :
    (2 : ℚ) ^ floorLog2 n d ≤ (n : ℚ) / d ∧ (n : ℚ) / d < (2 : ℚ) ^ (floorLog2 n d + 1) := by
  have hdq : (0 : ℚ) < d := by exact_mod_cast hd
  have hn1 : ((2 : ℚ)) ^ (Nat.log2 n : Int) ≤ n := by
    rw [zpow_natCast]; exact_mod_cast Nat.log2_self_le hn.ne'
  have hn2 : (n : ℚ) < (2 : ℚ) ^ ((Nat.log2 n : Int) + 1) := by
    have : n < 2 ^ (Nat.log2 n + 1) := Nat.lt_log2_self
    exact_mod_cast this
  have hd1 : ((2 : ℚ)) ^ (Nat.log2 d : Int) ≤ d := by
    rw [zpow_natCast]; exact_mod_cast Nat.log2_self_le hd.ne'
  have hd2 : (d : ℚ) < (2 : ℚ) ^ ((Nat.log2 d : Int) + 1) := by
    have : d < 2 ^ (Nat.log2 d + 1) := Nat.lt_log2_self
    exact_mod_cast this
  have two : (2 : ℚ) ≠ 0 := by norm_num
  set e : Int := (Nat.log2 n : Int) - (Nat.log2 d : Int) with he
  have hup : (n : ℚ) / d < (2 : ℚ) ^ (e + 1) := by
    rw [div_lt_iff₀ hdq]
    refine lt_of_lt_of_le hn2 ?_
    have : (2 : ℚ) ^ ((Nat.log2 n : Int) + 1) = (2 : ℚ) ^ (e + 1) * 2 ^ (Nat.log2 d : Int) := by
      rw [← zpow_add₀ two]; congr 1; omega
    rw [this]
    exact mul_le_mul_of_nonneg_left hd1 (by positivity)
  have hlow : (2 : ℚ) ^ (e - 1) ≤ (n : ℚ) / d := by
    rw [le_div_iff₀ hdq]
    refine le_trans ?_ hn1
    have : (2 : ℚ) ^ (Nat.log2 n : Int) = (2 : ℚ) ^ (e - 1) * 2 ^ ((Nat.log2 d : Int) + 1) := by
      rw [← zpow_add₀ two]; congr 1; omega
    rw [this]
    exact mul_le_mul_of_nonneg_left hd2.le (by positivity)
  unfold floorLog2
  simp only [← he]
  split
  · next h => exact ⟨(two_zpow_le_div_iff n d hd e).1 h, hup⟩
  · next h =>
    rw [two_zpow_le_div_iff n d hd e, not_le] at h
    exact ⟨hlow, by simpa using h⟩

end Sys2Proof.Machine
end

