-- ==== Sys2Proof/Laws/Window.lean ====
section
/-! SUPPORT. The 28 bytes of `ENCODE`'s window, one by one, and the small facts of the units they are made of. -/

namespace Sys2Proof.Machine

/-- `FX_TO_WIRE` moves no bit (R90: the two's complement pattern, unchanged). -/
@[simp] theorem fxToWire_eq (x : BitVec 32) : fxToWire x = x := BitVec.ofInt_toInt

/-- `FX_FROM_WIRE` moves no bit (R91). -/
@[simp] theorem fxFromWire_eq (u : BitVec 32) : fxFromWire u = u := BitVec.ofInt_toInt

@[simp] theorem drawnByte_some (b : Byte) (n : Nat) : drawnByte (some b) n = b := rfl
@[simp] theorem drawnByte_none (n : Nat) : drawnByte none n = Config.freeByte n := rfl
@[simp] theorem drawnLevel_some (l n : Nat) : drawnLevel (some l) n = l := rfl
@[simp] theorem drawnLevel_none (n : Nat) : drawnLevel none n = (Config.freeLevel n).toNat := rfl

/-- The results of `DECODE` field by field (R130). -/
theorem decodeWindow_eq (w : Vector Byte 28) :
    decodeWindow w =
      { address := getBytes8 #v[w[0], w[1], w[2], w[3], w[4], w[5], w[6], w[7]]
        timestamp := getBe32 #v[w[8], w[9], w[10], w[11]]
        latitude := getBe32 #v[w[12], w[13], w[14], w[15]]
        longitude := getBe32 #v[w[16], w[17], w[18], w[19]]
        speed := spdUnscale (unpackPaispd (getBe16 #v[w[20], w[21]])).2
        positionAccuracy := (unpackPaispd (getBe16 #v[w[20], w[21]])).1
        heading := getBe16 #v[w[22], w[23]]
        cbr0 := dqCbr w[24]
        cbr1 := dqCbr w[25]
        txPowerLevel := unpackTxp w[26] } := by
  simp [decodeWindow]

variable (p : Config.Params) (c : Command) (n : Nat)

/-- Bytes 0 to 7 (R52). -/
theorem Command.window_address (k : Nat) (hk : k < 8) :
    (c.window p n)[k] = addressByte c.hdr.address k := by
  interval_cases k <;> rfl

/-- Bytes 8 to 11 (R53). -/
theorem Command.window_timestamp (k : Nat) (hk : k < 4) :
    (c.window p n)[8 + k] = c.hdr.timestamp.extractLsb' (24 - 8 * k) 8 := by
  interval_cases k <;> rfl

/-- Bytes 12 to 15 (R54). -/
theorem Command.window_latitude (k : Nat) (hk : k < 4) :
    (c.window p n)[12 + k] = c.hdr.latitude.extractLsb' (24 - 8 * k) 8 := by
  interval_cases k <;> simp [Command.window, putBe32]

/-- Bytes 16 to 19 (R55). -/
theorem Command.window_longitude (k : Nat) (hk : k < 4) :
    (c.window p n)[16 + k] = c.hdr.longitude.extractLsb' (24 - 8 * k) 8 := by
  interval_cases k <;> simp [Command.window, putBe32]

/-- Bytes 20 and 21 (R56). -/
theorem Command.window_paispd (k : Nat) (hk : k < 2) :
    (c.window p n)[20 + k]
      = (packPaispd c.hdr.positionAccuracy (spdScale c.hdr.speed)).extractLsb' (8 - 8 * k) 8 := by
  interval_cases k <;> rfl

/-- Bytes 22 and 23 (R57). -/
theorem Command.window_heading (k : Nat) (hk : k < 2) :
    (c.window p n)[22 + k] = c.hdr.heading.extractLsb' (8 - 8 * k) 8 := by
  interval_cases k <;> rfl

/-- Bytes 24 to 27 are the extension (R62). -/
theorem Command.window_extension (k : Nat) (hk : k < 4) :
    (c.window p n)[24 + k] = (c.extensionBytes p n)[k] := by
  interval_cases k <;> rfl

@[simp] theorem Command.extensionBytes_absent (h : c.extensionLive = false) :
    c.extensionBytes p n = #v[0x00#8, 0x00#8, 0x00#8, 0x00#8] := by simp [Command.extensionBytes, h]

@[simp] theorem Command.extensionBytes_live (h : c.extensionLive = true) :
    c.extensionBytes p n
      = #v[drawnByte (qCbr0 p c.met.cbr0) n, drawnByte (qCbr1 p c.met.cbr1) (n + 1),
          packTxp (drawnLevel (qTxp p c.phy.txPower) (n + 2)), 0x00#8] := by simp [Command.extensionBytes, h]

end Sys2Proof.Machine
end

