-- ==== Sys2Proof/Tests/Slice0.lean ====
section
/-! SUPPORT. The model's own tests. Expected results are those of 95_test_vectors.md and the rules named beside each;
none was taken from the model. The last part shows, for each statement of Certificates/Slice0/Obligations.lean that has
hypotheses, values that meet them together, each clause at a boundary of its range. -/

namespace Sys2Proof.Tests

open Sys2Proof.Machine

/-! ## Well-formedness: one ill-formed term for each check -/

theorem smoke_reservedOp3_is_ill_formed : Instr.wellFormed .reservedOp3 = false := by decide

/-- A wire form with the given reserved bits and packed speed, every other field 0. -/
def wireWith (high : BitVec 3) (byte : Byte) (speed : BitVec 15) : WireForm :=
  ⟨0#64, 0#32, 0#32, 0#32, false, speed, 0#16, 0#8, 0#8, high, 0#5, byte⟩

theorem smoke_reservedHigh_is_ill_formed : Instr.wellFormed (.shbWire (wireWith 0b001#3 0#8 0#15)) = false := by decide
theorem smoke_reservedByte_is_ill_formed : Instr.wellFormed (.shbWire (wireWith 0#3 0x80#8 0#15)) = false := by decide
theorem smoke_well_formed :
    Instr.wellFormed .size && Instr.wellFormed .encode && Instr.wellFormed .decode
      && Instr.wellFormed (.shbWire (wireWith 0#3 0#8 1#15)) := by decide
/-- R66: an odd packed speed is legal and not canonical. -/
theorem smoke_canonical : (wireWith 0#3 0#8 1#15).canonical = false ∧ (wireWith 0#3 0#8 2#15).canonical = true := by
  decide

/-! ## Decoding: each row's word written out from the spec's encoding -/

/-- R63, `SIZE` 00. -/
theorem test_decode_size : decodeBytes [0b00000000#8] = .ok .size ∧ decodeTableWord 8 0 = some .size := by decide
/-- R63, `ENCODE` 01. -/
theorem test_decode_encode : decodeBytes [0b00000001#8] = .ok .encode ∧ decodeTableWord 8 1 = some .encode := by decide
/-- R63, `DECODE` 10. -/
theorem test_decode_decode : decodeBytes [0b00000010#8] = .ok .decode ∧ decodeTableWord 8 2 = some .decode := by decide
/-- R65, the reserved code 11. -/
theorem test_decode_reservedOp3 :
    decodeBytes [0b00000011#8] = .ok .reservedOp3 ∧ decodeTableWord 8 3 = some .reservedOp3 := by decide
/-- R50 and the numbering of the `SHB_WIRE` row: bit 63 is the accuracy, bits 62:48 the speed, bits 12:8 the power,
bits 223:160 the address, bits 7:0 the reserved byte. -/
theorem test_decode_shbWire :
    decodeTableWord 224 (2 ^ 63 + 5 * 2 ^ 48 + 20 * 2 ^ 8 + 7 * 2 ^ 160 + 9)
      = some (.shbWire ⟨7#64, 0#32, 0#32, 0#32, true, 5#15, 0#16, 0#8, 0#8, 0#3, 20#5, 9#8⟩) := by decide +kernel
theorem test_decode_no_code :
    decodeBytes [] = .error (.length 0) ∧ decodeBytes [0x04#8] = .error (.padding 0x04#8)
      ∧ decodeBytes [0x01#8, 0x02#8] = .error (.length 2) := by decide

/-! ## The functional units on the vectors of 95_test_vectors.md -/

/-- Section 2.1. -/
theorem test_converter :
    (putBe32 0x01020304#32).toList = [0x01#8, 0x02#8, 0x03#8, 0x04#8] ∧ getBe16 #v[0x12#8, 0x34#8] = 0x1234#16
      ∧ (putBytes8 0x0011223344556677#64).toList
          = [0x00#8, 0x11#8, 0x22#8, 0x33#8, 0x44#8, 0x55#8, 0x66#8, 0x77#8] := by decide
/-- Section 2.1. -/
theorem test_packer :
    packPaispd true 0x0028#15 = 0x8028#16 ∧ unpackPaispd 0xFFFF#16 = (true, 0x7FFF#15) ∧ packTxp 20 = 0x14#8
      ∧ unpackTxp 0xF4#8 = 20#5 := by decide
/-- Section 2.2: -41 gives 0x7FD6 (the shift is a floor), 16384 and -16384 collide, -32768 collides with 0. -/
theorem test_speed :
    spdScale (BitVec.ofInt 16 (-41)) = 0x7FD6#15 ∧ spdScale 16384#16 = 0x4000#15
      ∧ spdScale (BitVec.ofInt 16 (-16384)) = 0x4000#15 ∧ spdScale 0x8000#16 = 0#15 := by decide
/-- Section 2.3, the `CBR_MUL` boundary, the largest below 1, the first wrap and the negatives, with the alternatives. -/
theorem test_cbr_quantisers :
    qCbr0 params 0x3F70101010101010#64 = some 0x01#8
      ∧ qCbr0 { params with cbrMul := .exact } 0x3F70101010101010#64 = some 0x00#8
      ∧ qCbr0 params 0x3FEFFFFFFFFFFFFF#64 = some 0xFE#8 ∧ qCbr1 params 0x3FF0101010101010#64 = some 0x00#8
      ∧ qCbr1 params 0xBFB999999999999A#64 = some 0xE6#8
      ∧ qCbr1 { params with cbr1NegRounding := .trunc } 0xBFB999999999999A#64 = some 0xE7#8
      ∧ qCbr1 { params with cbr1Policy := .clamp } 0x4000000000000000#64 = some 0xFF#8 := by decide +kernel
/-- Section 2.4. -/
theorem test_cbr_dequantiser :
    dqCbr 0x33#8 = 0x3FC999999999999A#64 ∧ dqCbr 0x98#8 = 0x3FE3131313131313#64
      ∧ dqCbr 0xFE#8 = 0x3FEFDFDFDFDFDFE0#64 := by decide +kernel
/-- Section 2.5: ties away from zero, computed exactly, clamped before the mask. -/
theorem test_txp_quantiser :
    qTxp params 0x3FDFFFFFFFFFFFFF#64 = some 0 ∧ qTxp params 0x3FE0000000000000#64 = some 1
      ∧ qTxp params 0x4030800000000000#64 = some 17 ∧ qTxp params 0x4040000000000000#64 = some 31
      ∧ qTxp { params with txpTies := .halfEven } 0x4030800000000000#64 = some 16 := by decide +kernel

/-! ## The operations, one step each -/

/-- The next state of an outcome. -/
def nextOf : Host.Outcome State Fault Refusal → Option State
  | .next s => some s
  | .fault _ => none
  | .refused _ => none

/-- The operands of vector H1 (section 2.6) on the port, at `cur = 0`. -/
def docCommand : Command where
  code := [0x01#8]
  cur := 0#32
  hdr := ⟨0x0011223344556677#64, 1000#32, 100000#32, BitVec.ofInt 32 (-200000), 40#16, true, 90#16⟩
  met := ⟨true, 0x3FE0000000000000#64, 0x3FE999999999999A#64⟩
  phy := ⟨true, 0x4034000000000000#64⟩

/-- A buffer that the window of `docCommand` fills exactly. -/
def docState : State := { State.reset with bufLen := 28#32, cmd := docCommand }

/-- The same with a buffer one byte short (section 2.8). -/
def shortState : State := { docState with bufLen := 27#32 }

/-- The 28 bytes of H1. -/
def docBytes : List Byte :=
  [0x00#8, 0x11#8, 0x22#8, 0x33#8, 0x44#8, 0x55#8, 0x66#8, 0x77#8, 0x00#8, 0x00#8, 0x03#8, 0xE8#8, 0x00#8, 0x01#8,
    0x86#8, 0xA0#8, 0xFF#8, 0xFC#8, 0xF2#8, 0xC0#8, 0x80#8, 0x28#8, 0x00#8, 0x5A#8, 0x7F#8, 0xCC#8, 0x14#8, 0x00#8]

/-- `docState` with those bytes in its buffer. -/
def docWindow : State := docState.memWrite 0 docBytes

/-- R69. -/
theorem test_size : (nextOf (exec .size shortState)).map State.res = some (some (.size 28#32)) := by decide
/-- H1: the 28 bytes; `RES.bytes = 28`, `cur_out = 28`. -/
theorem test_encode_h1 :
    (nextOf (exec .encode docState)).map (fun t => ((t.memRead 0 28).toList, t.res))
      = some (docBytes, some (.encode 28#32 28#32)) := by decide +kernel
/-- H6 (a): one collaborator gives the zero block. -/
theorem test_encode_h6 :
    (nextOf (exec .encode { docState with cmd := { docCommand with phy := ⟨false, 0x4034000000000000#64⟩ } })).map
      (fun t => [t.byteAt 23, t.byteAt 24, t.byteAt 25, t.byteAt 26, t.byteAt 27])
      = some [0x5A#8, 0x00#8, 0x00#8, 0x00#8, 0x00#8] := by decide +kernel
/-- Section 2.7, the H1 row. -/
theorem test_decode_h1 :
    (nextOf (exec .decode docWindow)).map State.res
      = some (some (.decode ⟨0x0011223344556677#64, 1000#32, 100000#32, BitVec.ofInt 32 (-200000), 40#16, true, 90#16,
          0x3FDFDFDFDFDFDFE0#64, 0x3FE999999999999A#64, 20#5⟩ 28#32 28#32)) := by decide +kernel
/-- Section 2.8: 27 bytes are too few; nothing is read, no response, the mark set. -/
theorem test_decode_short :
    (nextOf (exec .decode shortState)).map (fun t => (t.res, t.faulted, t.faultRec))
        = some (none, true, some ⟨.decode, 0#32⟩)
      ∧ (nextOf (exec .decode shortState)).map (fun t => t.buf.isEmpty) = some true := by decide
/-- R65: no next state. -/
theorem test_reservedOp3 : nextOf (exec .reservedOp3 docState) = none := by decide
/-- R2: no next state. -/
theorem test_shbWire : nextOf (exec (.shbWire (wireWith 0#3 0#8 0#15)) docState) = none := by decide
/-- Section 2.8: the sum `cur + 28` is exact at the top of the largest buffer. -/
theorem test_window_top :
    ({ State.reset with cmd := { docCommand with cur := 4294967267#32 } } : State).windowFits
      ∧ ¬ ({ State.reset with cmd := { docCommand with cur := 4294967268#32 } } : State).windowFits := by decide
/-- R67, P1: the first move is issued, the operands come onto the port, the script moves on. -/
theorem test_step_issue :
    (nextOf (step { docState with
        script := [.issue [0x00#8] .carry docCommand.hdr docCommand.met docCommand.phy, .write 3#32 7#8] })).map
      (fun t => (t.res, t.cmd.cur, t.script)) = some (some (.size 28#32), 0#32, [.write 3#32 7#8]) := by decide
/-- A table word is the next command. -/
theorem test_fetch_word :
    (nextOf (step (State.reset.withFetchWord 8 2))).map State.cursor = some 28#32 := by decide +kernel

/-! ## Witnesses: values that meet each statement's hypotheses together

`docState` fills its buffer exactly, `shortState` is one byte short; the statements whose only hypothesis is an admitted
window (the window fits) share `witness_admitted_window`: SizeIsTheCountEncodeAndDecodeMove, ExactFieldsTravelBitForBit,
AccuracyAndSpeedShareOneField, ReservedBitsAreZeroAfterEncode, EncodeChangesOnlyItsWindow,
CursorAdvancesByTwentyEight, DecodeIsATotalFunctionOfTheWindow, DecodeChangesOnlyTheResponse. -/

theorem witness_admitted_window : docState.windowFits ∧ State.reset.windowFits := by decide

theorem witness_DecoderReadsOnlyEncodings :
    decodeBytes [0x02#8] = .ok .decode ∧ ∃ w, decodeBytes docBytes = .ok (.shbWire w) := ⟨by decide, _, rfl⟩

theorem witness_BytesThatAreNoCodeAreRefusedByName :
    (List.replicate 27 (0#8 : Byte)).length ≠ 1 ∧ (List.replicate 27 (0#8 : Byte)).length ≠ 28
      ∧ 4 ≤ (0x04#8 : Byte).toNat := by decide

theorem witness_ExtensionIsLiveOnlyWithBothCollaborators :
    (docState.windowFits ∧ docState.cmd.met.present = true ∧ docState.cmd.phy.present = true
      ∧ qCbr0 params docState.cmd.met.cbr0 = some 127#8 ∧ qCbr1 params docState.cmd.met.cbr1 = some 204#8
      ∧ qTxp params docState.cmd.phy.txPower = some 20)
    ∧ State.reset.windowFits ∧ ¬ (State.reset.cmd.met.present = true ∧ State.reset.cmd.phy.present = true) := by
  decide +kernel

/-- `docWindow` with reserved bits set: bytes 26 and 27 as in the last row of section 2.7. -/
def reservedWindow : State := docWindow.memWrite 26 [0xF4#8, 0xFF#8]

theorem witness_ReservedBitsAreIgnoredByDecode :
    docWindow.cmd = reservedWindow.cmd ∧ docWindow.windowFits ∧ reservedWindow.windowFits
      ∧ (∀ k < 26, docWindow.byteAt (docWindow.cmd.cur.toNat + k) = reservedWindow.byteAt (docWindow.cmd.cur.toNat + k))
      ∧ (docWindow.byteAt (docWindow.cmd.cur.toNat + 26)).extractLsb' 0 5
          = (reservedWindow.byteAt (docWindow.cmd.cur.toNat + 26)).extractLsb' 0 5
      ∧ docWindow.byteAt 26 ≠ reservedWindow.byteAt 26 := by decide +kernel

theorem witness_ExtensionBytesAreAlwaysDecoded :
    State.reset.windowFits
      ∧ ∀ k, 24 ≤ k → k < 28 → State.reset.byteAt (State.reset.cmd.cur.toNat + k) = 0x00#8 :=
  ⟨by decide, fun _ _ _ => rfl⟩

theorem witness_BufferBoundsDoesNothingButMark : ¬ shortState.windowFits := by decide

theorem witness_OnlyAShortBufferFaults :
    shortState.faulted = false ∧ shortState.bufLen.toNat < shortState.cmd.cur.toNat + 28
      ∧ docState.cmd.cur.toNat + 28 ≤ docState.bufLen.toNat
      ∧ (∃ t, exec .encode shortState = .next t) ∧ (∃ t, exec .decode shortState = .next t)
      ∧ (∃ t, exec .size shortState = .next t) ∧ ∃ t, exec .encode docState = .next t :=
  ⟨by decide, by decide, by decide, ⟨_, exec_encode_of_short _ (by decide)⟩, ⟨_, exec_decode_of_short _ (by decide)⟩,
    ⟨_, rfl⟩, ⟨_, exec_encode_of_fits _ (by decide)⟩⟩

/-- A faulted state whose next move is `SIZE`. -/
def faultedState : State :=
  { shortState.raiseBufferBounds .encode with
    script := [.issue [0x00#8] (.at 5#32) docCommand.hdr docCommand.met docCommand.phy] }

theorem witness_FaultMarkIsNeverCleared :
    ¬ shortState.windowFits ∧ faultedState.faulted = true ∧ ∃ t, step faultedState = .next t :=
  ⟨by decide, rfl, _, rfl⟩

theorem witness_TheMarkDoesNotChangeTheBlock : ∃ t, exec .decode docWindow = .next t :=
  ⟨_, exec_decode_of_fits _ (by decide)⟩

theorem witness_StepKeepsTheInvariant : faultedState.Inv ∧ ∃ t, step faultedState = .next t :=
  ⟨by decide, _, rfl⟩

theorem witness_StepRunsTheDecodedCommand :
    decodeBytes [0x00#8] = .ok .size
      ∧ faultedState.script = .issue [0x00#8] (.at 5#32) docCommand.hdr docCommand.met docCommand.phy :: []
      ∧ ({ docState with script := [.issue [0x00#8] .carry docCommand.hdr docCommand.met docCommand.phy] } : State).script
          = .issue [0x00#8] .carry docCommand.hdr docCommand.met docCommand.phy :: [] := ⟨by decide, rfl, rfl⟩

/-- A state whose next move issues bytes that are no code. -/
def noCodeState : State :=
  { docState with script := [.issue [0x04#8] .carry docCommand.hdr docCommand.met docCommand.phy] }

theorem witness_StepRefusesWhatIsNoCode :
    noCodeState.script = .issue [0x04#8] .carry docCommand.hdr docCommand.met docCommand.phy :: []
      ∧ decodeBytes [0x04#8] = .error (.padding 0x04#8) := ⟨rfl, by decide⟩

theorem witness_WaitingChangesNothing : State.reset.script = [] := rfl

/-- A state whose next move writes the byte at an address. -/
def writingState (a : BitVec 32) : State := { docState with script := [.write a 0x7F#8] }

theorem witness_HostWriteStoresExactlyOneByte :
    (writingState 27#32).script = .write 27#32 0x7F#8 :: [] ∧ (27#32 : BitVec 32).toNat < (writingState 27#32).bufLen.toNat
      ∧ (writingState 28#32).script = .write 28#32 0x7F#8 :: []
      ∧ (writingState 28#32).bufLen.toNat ≤ (28#32 : BitVec 32).toNat := by decide

theorem witness_FetchWordIsTheNextCommand : decodeTableWord 8 1 = some .encode := by decide

/-- A state whose next move is `ENCODE` of `docCommand`. -/
def encodingState : State :=
  { docState with script := [.issue [0x01#8] (.at 0#32) docCommand.hdr docCommand.met docCommand.phy] }

theorem witness_OnlyEncodeAndTheHostWriteTheBuffer :
    (nextOf (step (writingState 27#32))).map (fun t => t.byteAt 27) = some 0x7F#8
      ∧ (writingState 27#32).byteAt 27 = 0x00#8
      ∧ (nextOf (step encodingState)).map (fun t => t.byteAt 24) = some 0x7F#8 ∧ encodingState.byteAt 24 = 0x00#8 := by
  decide +kernel

theorem witness_ResultDependsOnOperandsAndWindowOnly :
    docState.cmd = faultedState.cmd ∧ docWindow.bufLen = docState.bufLen ∧ docState.draws = docWindow.draws
      ∧ (∀ k < 28, docWindow.byteAt (docWindow.cmd.cur.toNat + k)
          = { docWindow with faulted := true }.byteAt (docWindow.cmd.cur.toNat + k))
      ∧ (∃ t, exec .decode docWindow = .next t) ∧ ∃ t, exec .decode { docWindow with faulted := true } = .next t :=
  ⟨rfl, rfl, rfl, fun _ _ => rfl, ⟨_, exec_decode_of_fits _ (by decide)⟩, ⟨_, exec_decode_of_fits _ (by decide)⟩⟩

/-- `docState` with another speed. -/
def speedState (v : BitVec 16) : State :=
  { docState with cmd := { docCommand with hdr := { docCommand.hdr with speed := v } } }

theorem witness_DecodedSpeedIsTheRawField :
    docWindow.windowFits ∧ (speedState 0xC000#16).windowFits
      ∧ (speedState 0xC000#16).cmd.hdr.speed.toInt = -16384
      ∧ (speedState 0xBFFF#16).windowFits ∧ (speedState 0xBFFF#16).cmd.hdr.speed.toInt = -16385 := by decide

theorem witness_RoundTripReturnsTheExactFields :
    docState.windowFits ∧ docState.cmd.met.present = true ∧ docState.cmd.phy.present = true
      ∧ qCbr0 params docState.cmd.met.cbr0 = some 127#8 ∧ qCbr1 params docState.cmd.met.cbr1 = some 204#8
      ∧ qTxp params docState.cmd.phy.txPower = some 20 := by decide +kernel

theorem witness_DecodeThenEncodeIsCanonical :
    docWindow.windowFits ∧ (decodeWindow (docWindow.memRead 0 28)).txPowerLevel = 20#5
      ∧ fpFinite 0x4034000000000000#64 = true ∧ val 0x4034000000000000#64 = ((20#5 : BitVec 5).toNat : ℚ) := by
  decide +kernel

theorem witness_RepeatedEncodeWritesTheSameBytes :
    docState.cmd = docWindow.cmd ∧ docState.draws = docWindow.draws ∧ docState.windowFits ∧ docWindow.windowFits
      ∧ docState.cmd.extensionLive = true ∧ qCbr0 params docState.cmd.met.cbr0 ≠ none
      ∧ qCbr1 params docState.cmd.met.cbr1 ≠ none ∧ qTxp params docState.cmd.phy.txPower ≠ none := by decide +kernel

/-- The fields of a pattern, as BinaryPatternsHaveTheirValues names them. -/
def fields (x : BitVec 64) : Nat × Nat × Nat :=
  ((x.extractLsb' 63 1).toNat, (x.extractLsb' 52 11).toNat, (x.extractLsb' 0 52).toNat)

theorem witness_BinaryPatternsHaveTheirValues :
    fields 0x8000000000000000#64 = (1, 0, 0) ∧ fields 0x0000000000000001#64 = (0, 0, 1)
      ∧ fields 0x0010000000000000#64 = (0, 1, 0) ∧ (fields 0x7FEFFFFFFFFFFFFF#64).2.1 = 2046
      ∧ fields 0x7FF0000000000000#64 = (0, 2047, 0) ∧ fields 0x7FF8000000000000#64 = (0, 2047, 2 ^ 51) := by decide

theorem witness_RneRoundsToNearestEven :
    fpFinite (rne64 1 255) = true ∧ fpFinite 0x3F70101010101011#64 = true
      ∧ fpFinite (rne64 (2 ^ 1024 - 2 ^ 970) 1) = false ∧ fpFinite (rne64 (2 ^ 1024 - 2 ^ 970 - 1) 1) = true
      ∧ |val (rne64 (2 ^ 53 + 1) 1) - (2 ^ 53 + 1)| = |val 0x4340000000000001#64 - (2 ^ 53 + 1)|
      ∧ val 0x4340000000000001#64 ≠ val (rne64 (2 ^ 53 + 1) 1) ∧ val 0x3FF0000000000000#64 ≠ 0 := by decide +kernel

theorem witness_DecodedRatioIsTheNearestBinary64 :
    fpFinite 0x3FF0000000000000#64 = true ∧ val 0x3FF0000000000000#64 ≠ val (dqCbr 254#8) := by decide +kernel

theorem witness_HopZeroIsClampedThenFloored :
    fpFinite 0x8000000000000000#64 = true ∧ val 0x8000000000000000#64 ≤ 0
      ∧ fpFinite 0x3FF0000000000000#64 = true ∧ 1 ≤ val 0x3FF0000000000000#64
      ∧ fpFinite 0x3FEFFFFFFFFFFFFF#64 = true ∧ val 0x3FEFFFFFFFFFFFFF#64 < 1 := by decide +kernel

theorem witness_HopOneIsNotClampedAndWraps :
    fpFinite 0x4059000000000000#64 = true ∧ fpFinite (rne64 (units 0x4059000000000000#64 * 255) one64) = true
      ∧ fpFinite 0x3FF0000000000000#64 = true ∧ 0 ≤ val 0x0000000000000000#64 ∧ val 0x3FF0000000000000#64 ≤ 1
      ∧ fpFinite 0x8000000000000001#64 = true ∧ -1 ≤ 255 * val 0x8000000000000001#64
      ∧ val 0x8000000000000001#64 < 0 := by decide +kernel

theorem witness_NonFiniteOperandsStillComplete :
    fpClass 0xFFF8000000000000#64 = .nan ∧ fpFinite 0x7FEFFFFFFFFFFFFF#64 = true
      ∧ fpFinite (rne64 (units 0x7FEFFFFFFFFFFFFF#64 * 255) one64) = false
      ∧ ({ docState with cmd := { docCommand with met := ⟨true, 0x7FF8000000000000#64, 0x7FF8000000000000#64⟩ } }
          : State).windowFits := by decide +kernel

theorem witness_CbrQuantisationIsWithinOneStep :
    fpFinite 0x0000000000000000#64 = true ∧ 0 ≤ val 0x0000000000000000#64 ∧ val 0x0000000000000000#64 ≤ 1
      ∧ fpFinite 0x3FF0000000000000#64 = true ∧ 0 ≤ val 0x3FF0000000000000#64 ∧ val 0x3FF0000000000000#64 ≤ 1 := by
  decide +kernel

theorem witness_CbrQuantiserIsMonotone :
    fpFinite 0x3FEFFFFFFFFFFFFF#64 = true ∧ fpFinite 0x3FF0000000000000#64 = true
      ∧ val 0x3FEFFFFFFFFFFFFF#64 ≤ val 0x3FF0000000000000#64 ∧ 0 ≤ val 0x3FEFFFFFFFFFFFFF#64
      ∧ val 0x3FF0000000000000#64 ≤ 1 ∧ (254#8 : Byte).toNat < (255#8 : Byte).toNat := by decide +kernel

theorem witness_TransmitPowerIsRoundedThenClamped :
    fpFinite 0x3FDFFFFFFFFFFFFF#64 = true ∧ val 0x3FDFFFFFFFFFFFFF#64 < 1 / 2
      ∧ fpFinite 0x3FE0000000000000#64 = true ∧ ((1 : Nat) : ℚ) - 1 / 2 ≤ val 0x3FE0000000000000#64
      ∧ val 0x3FE0000000000000#64 < ((1 : Nat) : ℚ) + 1 / 2
      ∧ fpFinite 0x403E7FFFFFFFFFFF#64 = true ∧ ((30 : Nat) : ℚ) - 1 / 2 ≤ val 0x403E7FFFFFFFFFFF#64
      ∧ val 0x403E7FFFFFFFFFFF#64 < ((30 : Nat) : ℚ) + 1 / 2
      ∧ fpFinite 0x403E800000000000#64 = true ∧ 61 / 2 ≤ val 0x403E800000000000#64 := by decide +kernel

theorem witness_RoundHalfAwayIsExact : (0 : Int) ≤ 0 ∧ (-1 : Int) < 0 := by decide

/-- For PackerFieldsOccupyTheirBits and PackerRoundTrips. -/
theorem witness_levels_up_to_31 : (31 : Nat) ≤ 31 := by decide

theorem witness_SpeedLossFollowsSignAndParity :
    (0 ≤ (0#16 : BitVec 16).toInt ∧ (0#16 : BitVec 16).toInt % 2 = 0)
      ∧ (0 ≤ (0x7FFF#16 : BitVec 16).toInt ∧ (0x7FFF#16 : BitVec 16).toInt % 2 = 1)
      ∧ ((0x8000#16 : BitVec 16).toInt < 0 ∧ (0x8000#16 : BitVec 16).toInt % 2 = 0)
      ∧ (0xFFFF#16 : BitVec 16).toInt < 0 ∧ (0xFFFF#16 : BitVec 16).toInt % 2 = 1 := by decide

theorem witness_SpeedScaleIsIndependentOfItsWidth : 16 ≤ 16 ∧ 16 ≤ 32 := by decide

end Sys2Proof.Tests
end

section
/-! The scope of the block (00_scope.md): which instructions answer a next state. -/

namespace Sys2Proof.Machine

/-- `ENCODE` answers a next state whether or not its window fits (log 10). -/
theorem exec_encode_completes (s : State) : ∃ t, exec .encode s = .next t := by
  by_cases hf : s.windowFits
  · exact ⟨_, exec_encode_of_fits s hf⟩
  · exact ⟨_, exec_encode_of_short s hf⟩

/-- `DECODE` answers a next state whether or not its window fits (log 10). -/
theorem exec_decode_completes (s : State) : ∃ t, exec .decode s = .next t := by
  by_cases hf : s.windowFits
  · exact ⟨_, exec_decode_of_fits s hf⟩
  · exact ⟨_, exec_decode_of_short s hf⟩

/-- R2: the block's operations are the instructions that answer a next state. -/
theorem exec_completes_iff (i : Instr) (s : State) :
    (∃ t, exec i s = .next t) ↔ (i = .size ∨ i = .encode ∨ i = .decode) := by
  constructor
  · rintro ⟨t, h⟩
    obtain ⟨hi, -⟩ | ⟨hi, -⟩ | ⟨hi, -⟩ | ⟨hi, -⟩ | ⟨hi, -⟩ := exec_next_cases h
    · exact .inl hi
    · exact .inr (.inl hi)
    · exact .inr (.inl hi)
    · exact .inr (.inr hi)
    · exact .inr (.inr hi)
  · rintro (rfl | rfl | rfl)
    · exact ⟨_, exec_size s⟩
    · exact exec_encode_completes s
    · exact exec_decode_completes s

/-- Settles O32: by the inversion of `exec` only the three operations answer a next state, and each of them does so
on both sides of the window check. -/
theorem exactlyThreeOperations : Obligations.ExactlyThreeOperations :=
  ⟨exec_completes_iff, fun s => ⟨_, exec_size s, State.respond_res s _⟩⟩

end Sys2Proof.Machine
end

section
/-! The state and what an operation takes from it (10_state.md): the cursor's advance, the operands an operation reads,
and that a result depends on nothing else. -/

namespace Sys2Proof.Machine

@[simp] theorem decodeAdmitted_res (s : State) :
    (decodeAdmitted s).res
      = some (.decode (decodeWindow (s.memRead s.cmd.cur.toNat 28)) 28#32 s.curOut) := rfl

@[simp] theorem decodeAdmitted_byteAt (s : State) (x : Nat) : (decodeAdmitted s).byteAt x = s.byteAt x := rfl

/-! ## The cursor's advance (R24, R25, R123) -/

/-- Settles O15: an admitted window ends inside the buffer, so `cur + 28` does not wrap; no operand but `cur` enters
it. -/
theorem cursorAdvancesByTwentyEight : Obligations.CursorAdvancesByTwentyEight := by
  refine ⟨fun s hf => ⟨?_, ?_⟩, fun s => ⟨_, exec_size s, State.respond_res s _⟩⟩
  · exact ⟨_, _, exec_encode_of_fits s hf, encodeAdmitted_res s, s.curOut_toNat hf⟩
  · exact ⟨_, _, _, exec_decode_of_fits s hf, decodeAdmitted_res s, s.curOut_toNat hf⟩

/-! ## What a result depends on (R13) -/

section SameOperands
variable {s₁ s₂ : State} (hcmd : s₁.cmd = s₂.cmd)
include hcmd

/-- Window admission reads `cur` and `BUF_LEN` only (R33). -/
theorem State.windowFits_congr (hlen : s₁.bufLen = s₂.bufLen) : s₁.windowFits ↔ s₂.windowFits := by
  rw [State.windowFits_iff, State.windowFits_iff, hcmd, hlen]

theorem State.curOut_congr : s₁.curOut = s₂.curOut := by
  rw [State.curOut, State.curOut, hcmd]

/-- The response of `DECODE` is a function of `cur` and the window's bytes. -/
theorem decodeAdmitted_res_congr
    (hwin : ∀ k < 28, s₁.byteAt (s₁.cmd.cur.toNat + k) = s₂.byteAt (s₁.cmd.cur.toNat + k)) :
    (decodeAdmitted s₁).res = (decodeAdmitted s₂).res := by
  have hread : s₁.memRead s₁.cmd.cur.toNat 28 = s₂.memRead s₂.cmd.cur.toNat 28 := by
    rw [← hcmd]
    exact Vector.ext fun k hk => by simpa using hwin k hk
  rw [decodeAdmitted_res, decodeAdmitted_res, hread, State.curOut_congr hcmd]

/-- The bytes `ENCODE` leaves in its window are a function of the operands and the free values drawn (log 1). -/
theorem encodeAdmitted_byteAt_congr (hdraws : s₁.draws = s₂.draws) (k : Nat) (hk : k < 28) :
    (encodeAdmitted s₁).byteAt (s₁.cmd.cur.toNat + k) = (encodeAdmitted s₂).byteAt (s₁.cmd.cur.toNat + k) := by
  have h₂ := encodeAdmitted_byteAt_inside s₂ k hk
  rw [← hcmd, ← hdraws] at h₂
  exact (encodeAdmitted_byteAt_inside s₁ k hk).trans h₂.symm

end SameOperands

/-- Settles O33: by the cases of `exec`, where both states are on the same side of the window check. -/
theorem resultDependsOnOperandsAndWindowOnly : Obligations.ResultDependsOnOperandsAndWindowOnly := by
  intro i s₁ s₂ t₁ t₂ hcmd hlen hwin h₁ h₂
  have hfits := State.windowFits_congr hcmd hlen
  obtain ⟨rfl, rfl⟩ | ⟨rfl, hf, rfl⟩ | ⟨rfl, hf, rfl⟩ | ⟨rfl, hf, rfl⟩ | ⟨rfl, hf, rfl⟩ := exec_next_cases h₁
  · obtain rfl := Host.Outcome.next.inj ((exec_size s₂).symm.trans h₂)
    exact ⟨rfl, fun _ => hwin⟩
  · obtain rfl := Host.Outcome.next.inj ((exec_encode_of_fits s₂ (hfits.1 hf)).symm.trans h₂)
    exact ⟨by simp [State.curOut_congr hcmd], encodeAdmitted_byteAt_congr hcmd⟩
  · obtain rfl := Host.Outcome.next.inj ((exec_encode_of_short s₂ (mt hfits.2 hf)).symm.trans h₂)
    exact ⟨rfl, fun _ => hwin⟩
  · obtain rfl := Host.Outcome.next.inj ((exec_decode_of_fits s₂ (hfits.1 hf)).symm.trans h₂)
    exact ⟨decodeAdmitted_res_congr hcmd hwin, fun _ => hwin⟩
  · obtain rfl := Host.Outcome.next.inj ((exec_decode_of_short s₂ (mt hfits.2 hf)).symm.trans h₂)
    exact ⟨rfl, fun _ => hwin⟩

/-! ## Operands that are not read (R16) -/

section UnreadOperands
variable (s : State) (code : List Byte) (hdr : Hdr) (met : Met) (phy : Phy)

/-- Window admission reads no operand but `cur` (R33). -/
theorem State.windowFits_otherOperands :
    State.windowFits { s with cmd := ⟨code, s.cmd.cur, hdr, met, phy⟩ } ↔ s.windowFits := Iff.rfl

/-- `DECODE` reads no operand but `cur` (R130). -/
theorem decodeAdmitted_otherOperands :
    decodeAdmitted { s with cmd := ⟨code, s.cmd.cur, hdr, met, phy⟩ }
      = { decodeAdmitted s with cmd := ⟨code, s.cmd.cur, hdr, met, phy⟩ } := rfl

/-- `BufferBounds` records no operand but `cur` (R141). -/
theorem State.raiseBufferBounds_otherOperands (op : WindowOp) :
    State.raiseBufferBounds { s with cmd := ⟨code, s.cmd.cur, hdr, met, phy⟩ } op
      = { s.raiseBufferBounds op with cmd := ⟨code, s.cmd.cur, hdr, met, phy⟩ } := rfl

end UnreadOperands

/-- Settles O34: `SIZE` writes its response alone, and both branches of `DECODE` commute with a change of the operands
other than `cur`. -/
theorem unreadOperandsHaveNoEffect : Obligations.UnreadOperandsHaveNoEffect := by
  refine ⟨fun s c => exec_size _, fun s code hdr met phy => ?_⟩
  have hfits := State.windowFits_otherOperands s code hdr met phy
  by_cases hf : s.windowFits
  · exact ⟨_, exec_decode_of_fits s hf,
      by rw [exec_decode_of_fits _ (hfits.2 hf), decodeAdmitted_otherOperands]⟩
  · exact ⟨_, exec_decode_of_short s hf,
      by rw [exec_decode_of_short _ (mt hfits.1 hf), State.raiseBufferBounds_otherOperands]⟩

end Sys2Proof.Machine
end

section
/-! The encoding (30_encoding.md): what the command codes select, and the header's fields on the wire, byte by byte, as
`ENCODE` writes them and as `DECODE` reads them. -/

namespace Sys2Proof

/-! ## The command codes (R63, R65) -/

/-- A code on the port is read as the instruction it selects; its byte is padded with zeros (log 5). -/
theorem decodeBytes_encodeOp (op : BitVec 2) : decodeBytes (encodeOp op) = .ok (decodeOp op) := by
  have hpad : (op.setWidth 8).extractLsb' 2 6 = 0#6 := by
    ext i hi
    simp
  have hcode : (op.setWidth 8).extractLsb' 0 2 = op := by
    rw [BitVec.extractLsb'_setWidth_of_le (by decide), BitVec.extractLsb'_eq_self]
  rw [encodeOp, decodeBytes, decodeCommandByte, if_pos hpad, hcode]

/-- Settles O1: each byte is the padded form of one of the four codes, which `decodeOp` reads. -/
theorem commandCodesSelectTheirOperations : Obligations.CommandCodesSelectTheirOperations :=
  ⟨decodeBytes_encodeOp 0b00#2, decodeBytes_encodeOp 0b01#2, decodeBytes_encodeOp 0b10#2, decodeBytes_encodeOp 0b11#2⟩

end Sys2Proof

namespace Sys2Proof.Machine

/-- The reserved code is refused whatever the state (R65). -/
theorem exec_reservedOp3 (s : State) : exec .reservedOp3 s = .refused .reservedCommand := rfl

/-- Settles O30: the padded code `11` is read as the reserved row, whose arm is the refusal. -/
theorem reservedCodeIsRefused : Obligations.ReservedCodeIsRefused :=
  ⟨decodeBytes_encodeOp 0b11#2, exec_reservedOp3⟩

/-! ## The bytes of an assembled word (R74, R75, R77) -/

/-- Above the last byte, an assembled word is the word assembled without it. -/
theorem extractLsb'_append_byte {n : Nat} (x : BitVec n) (b : Byte) (start : Nat) :
    (x ++ b).extractLsb' (start + 8) 8 = x.extractLsb' start 8 :=
  BitVec.extractLsb'_append_eq_of_le (Nat.le_add_left 8 start)

theorem getBe16_byte (bs : Vector Byte 2) (k : Nat) (hk : k < 2) :
    (getBe16 bs).extractLsb' (8 - 8 * k) 8 = bs[k] := by
  interval_cases k
  · exact BitVec.extractLsb'_append_eq_left
  · exact BitVec.extractLsb'_append_eq_right

theorem getBe32_byte (bs : Vector Byte 4) (k : Nat) (hk : k < 4) :
    (getBe32 bs).extractLsb' (24 - 8 * k) 8 = bs[k] := by
  rw [getBe32]
  interval_cases k
  · iterate 3 rw [extractLsb'_append_byte]
    exact BitVec.extractLsb'_eq_self
  all_goals
    repeat rw [extractLsb'_append_byte]
    exact BitVec.extractLsb'_append_eq_right

theorem getBytes8_byte (bs : Vector Byte 8) (k : Nat) (hk : k < 8) :
    (getBytes8 bs).extractLsb' (56 - 8 * k) 8 = bs[k] := by
  rw [getBytes8]
  interval_cases k
  · iterate 7 rw [extractLsb'_append_byte]
    exact BitVec.extractLsb'_eq_self
  all_goals
    repeat rw [extractLsb'_append_byte]
    exact BitVec.extractLsb'_append_eq_right

theorem getBe16_putBe16 (v : BitVec 16) : getBe16 (putBe16 v) = v :=
  BitVec.extractLsb'_append_extractLsb' (w := 8) (len := 8)

/-! ## The exact fields (R52 to R55, R57) -/

section DecodedBytes
variable (w : Vector Byte 28) (k : Nat)

theorem decodeWindow_address_byte (hk : k < 8) :
    (decodeWindow w).address.extractLsb' (56 - 8 * k) 8 = w[k] := by
  rw [decodeWindow_eq, getBytes8_byte _ k hk]
  interval_cases k <;> rfl

theorem decodeWindow_timestamp_byte (hk : k < 4) :
    (decodeWindow w).timestamp.extractLsb' (24 - 8 * k) 8 = w[8 + k] := by
  rw [decodeWindow_eq, getBe32_byte _ k hk]
  interval_cases k <;> rfl

theorem decodeWindow_latitude_byte (hk : k < 4) :
    (decodeWindow w).latitude.extractLsb' (24 - 8 * k) 8 = w[12 + k] := by
  rw [decodeWindow_eq, getBe32_byte _ k hk]
  interval_cases k <;> rfl

theorem decodeWindow_longitude_byte (hk : k < 4) :
    (decodeWindow w).longitude.extractLsb' (24 - 8 * k) 8 = w[16 + k] := by
  rw [decodeWindow_eq, getBe32_byte _ k hk]
  interval_cases k <;> rfl

theorem decodeWindow_heading_byte (hk : k < 2) :
    (decodeWindow w).heading.extractLsb' (8 - 8 * k) 8 = w[22 + k] := by
  rw [decodeWindow_eq, getBe16_byte _ k hk]
  interval_cases k <;> rfl

end DecodedBytes

section FieldBytes
variable (s : State) (off k : Nat)

/-- Byte `k` of the field at offset `off` after `ENCODE`. -/
theorem encodeAdmitted_byteAt_field (h : off + k < 28) :
    (encodeAdmitted s).byteAt (s.cmd.cur.toNat + off + k) = (s.cmd.window params s.draws)[off + k] := by
  rw [Nat.add_assoc]
  exact encodeAdmitted_byteAt_inside s (off + k) h

/-- Byte `k` of the field at offset `off` of the window that `DECODE` reads. -/
theorem State.memRead_field (h : off + k < 28) :
    (s.memRead s.cmd.cur.toNat 28)[off + k] = s.byteAt (s.cmd.cur.toNat + off + k) := by
  rw [State.memRead_getElem, Nat.add_assoc]

end FieldBytes

/-- Settles O8: byte `k` of a field stands at its offset in the window of `ENCODE`, and byte `k` of a field that
`DECODE` assembles is the window's. -/
theorem exactFieldsTravelBitForBit : Obligations.ExactFieldsTravelBitForBit := by
  intro s hf
  constructor
  · refine ⟨_, exec_encode_of_fits s hf, fun i hi => ?_, fun i hi => ?_, fun i hi => ?_, fun i hi => ?_, fun i hi => ?_⟩
    · exact (encodeAdmitted_byteAt_inside s i (by omega)).trans (Command.window_address _ _ _ i hi)
    · exact (encodeAdmitted_byteAt_field s 8 i (by omega)).trans (Command.window_timestamp _ _ _ i hi)
    · exact (encodeAdmitted_byteAt_field s 12 i (by omega)).trans (Command.window_latitude _ _ _ i hi)
    · exact (encodeAdmitted_byteAt_field s 16 i (by omega)).trans (Command.window_longitude _ _ _ i hi)
    · exact (encodeAdmitted_byteAt_field s 22 i (by omega)).trans (Command.window_heading _ _ _ i hi)
  · refine ⟨_, _, exec_decode_of_fits s hf, decodeAdmitted_res s, fun i hi => ?_, fun i hi => ?_, fun i hi => ?_,
      fun i hi => ?_, fun i hi => ?_⟩
    · exact (decodeWindow_address_byte _ i hi).trans (State.memRead_getElem s _ 28 i (by omega))
    · exact (decodeWindow_timestamp_byte _ i hi).trans (State.memRead_field s 8 i (by omega))
    · exact (decodeWindow_latitude_byte _ i hi).trans (State.memRead_field s 12 i (by omega))
    · exact (decodeWindow_longitude_byte _ i hi).trans (State.memRead_field s 16 i (by omega))
    · exact (decodeWindow_heading_byte _ i hi).trans (State.memRead_field s 22 i (by omega))

/-! ## The accuracy bit and the packed speed (R56, R78, R79, R93, R94) -/

theorem setWidth_and_low15 (x : BitVec 16) : (x &&& 0x7FFF#16).setWidth 15 = x.setWidth 15 := by
  rw [BitVec.setWidth_and]
  exact BitVec.and_allOnes

/-- `SPD_UNSCALE` of the low 15 bits is the mask of R56. -/
theorem spdUnscale_setWidth (x : BitVec 16) : spdUnscale (x.setWidth 15) = x &&& 0x7FFF#16 := by
  apply BitVec.eq_of_toNat_eq
  have hmask : (x &&& 0x7FFF#16).toNat = x.toNat % 2 ^ 15 := Nat.and_two_pow_sub_one_eq_mod x.toNat 15
  rw [hmask, spdUnscale, BitVec.toNat_setWidth, BitVec.toNat_setWidth]
  omega

/-- The integers of R93 as operations on the pattern: `(speed >>a 1) * 2`. -/
theorem uN_halveDouble (v : BitVec 16) : uN 16 (halveDouble (sN v)) = v.sshiftRight 1 * 2#16 := by
  have hhalf : (v.sshiftRight 1).toInt = sN v / 2 := by
    rw [BitVec.toInt_sshiftRight, Int.shiftRight_eq_div_pow]; rfl
  calc uN 16 (halveDouble (sN v))
      = BitVec.ofInt 16 ((v.sshiftRight 1).toInt * 2) := by rw [hhalf, halveDouble]
    _ = BitVec.ofInt 16 (v.sshiftRight 1).toInt * BitVec.ofInt 16 2 := BitVec.ofInt_mul _ _
    _ = v.sshiftRight 1 * 2#16 := by rw [BitVec.ofInt_toInt]; rfl

/-- The packed speed is bits 14 to 1 of the speed and a zero. -/
theorem spdScale_eq_append (v : BitVec 16) : spdScale v = v.extractLsb' 1 14 ++ 0#1 := by
  have hdouble : v.sshiftRight 1 * 2#16 = v.sshiftRight 1 <<< 1 := BitVec.mul_twoPow_eq_shiftLeft _ 1
  rw [spdScale, setWidth_and_low15, uN_halveDouble, hdouble]
  ext i hi
  rw [BitVec.getElem_append]
  cases i with
  | zero => simp
  | succ i =>
    have hin : 1 + i < 16 := by omega
    have hlt : i < 16 := by omega
    simp [BitVec.getElem_sshiftRight, hin, hlt]

/-- `PACK_PAISPD` sets the accuracy bit before the 15 bits of the speed. -/
theorem packPaispd_eq_append (acc : Bool) (spd15 : BitVec 15) :
    packPaispd acc spd15 = BitVec.ofBool acc ++ spd15 := by
  ext i hi
  rw [packPaispd, BitVec.getElem_append]
  rcases Nat.lt_or_ge i 15 with hlow | hhigh
  · simp [hlow]
  · obtain rfl : i = 15 := by omega
    simp

/-- R56's formula. -/
theorem packPaispd_spdScale (acc : Bool) (v : BitVec 16) :
    packPaispd acc (spdScale v)
      = ((BitVec.ofBool acc).setWidth 16 <<< 15) ||| ((v.sshiftRight 1 * 2#16) &&& 0x7FFF#16) := by
  have hmask : (spdScale v).setWidth 16 = (v.sshiftRight 1 * 2#16) &&& 0x7FFF#16 := by
    rw [spdScale, setWidth_and_low15, uN_halveDouble]
    exact spdUnscale_setWidth _
  rw [packPaispd, hmask]

/-- R56's closed form. -/
theorem packPaispd_spdScale_eq_append (acc : Bool) (v : BitVec 16) :
    packPaispd acc (spdScale v) = BitVec.ofBool acc ++ v.extractLsb' 1 14 ++ 0#1 := by
  rw [packPaispd_eq_append, spdScale_eq_append]
  exact BitVec.append_assoc'.trans (BitVec.cast_eq _ _)

/-- Bytes 20 and 21 after `ENCODE`, read as one word. -/
theorem encodeAdmitted_paispd (s : State) :
    ((encodeAdmitted s).byteAt (s.cmd.cur.toNat + 20) ++ (encodeAdmitted s).byteAt (s.cmd.cur.toNat + 21) : BitVec 16)
      = packPaispd s.cmd.hdr.positionAccuracy (spdScale s.cmd.hdr.speed) := by
  have h20 := (encodeAdmitted_byteAt_inside s 20 (by decide)).trans (Command.window_paispd _ _ _ 0 (by decide))
  have h21 := (encodeAdmitted_byteAt_inside s 21 (by decide)).trans (Command.window_paispd _ _ _ 1 (by decide))
  rw [h20, h21]
  exact getBe16_putBe16 _

/-- The decoded accuracy is bit 15 of bytes 20 and 21. -/
theorem decodeWindow_positionAccuracy (w : Vector Byte 28) :
    (decodeWindow w).positionAccuracy = (w[20] ++ w[21] : BitVec 16).getLsbD 15 := rfl

/-- The decoded speed is bits 14 to 0 of bytes 20 and 21 (R94). -/
theorem decodeWindow_speed (w : Vector Byte 28) :
    (decodeWindow w).speed = (w[20] ++ w[21] : BitVec 16) &&& 0x7FFF#16 := spdUnscale_setWidth _

/-- Settles O9: `ENCODE` packs R56's word and its two forms agree; `DECODE` unpacks the window's word. -/
theorem accuracyAndSpeedShareOneField : Obligations.AccuracyAndSpeedShareOneField := by
  intro s hf
  have hword := encodeAdmitted_paispd s
  constructor
  · exact ⟨_, exec_encode_of_fits s hf, hword.trans (packPaispd_spdScale _ _),
      hword.trans (packPaispd_spdScale_eq_append _ _)⟩
  · refine ⟨_, _, exec_decode_of_fits s hf, decodeAdmitted_res s, ?_, ?_⟩
    · rw [decodeWindow_positionAccuracy, State.memRead_getElem, State.memRead_getElem]
    · rw [decodeWindow_speed, State.memRead_getElem, State.memRead_getElem]

end Sys2Proof.Machine
end

section
/-! The size query (40_size_query.md): `SIZE` completes in every state and writes its response alone. -/

namespace Sys2Proof.Machine

/-- Settles O6: the padded code `00` is read as `SIZE`, whose step is the response 28 and nothing else in every state. -/
theorem sizeAnswersTwentyEight : Obligations.SizeAnswersTwentyEight :=
  ⟨decodeBytes_encodeOp 0b00#2, exec_size⟩

end Sys2Proof.Machine
end

section
/-! The byte-order converter and the bit-field packer (41_packer_byteorder.md): the values of the bytes a word is put in
and got from, and the bits the packed fields take. -/

namespace Sys2Proof.Machine

/-! ## A concatenation as a number -/

/-- The low operand of a concatenation stays below its bound, so the OR of the two is a sum. -/
theorem toNat_append_eq_add {m n : Nat} (x : BitVec m) (y : BitVec n) :
    (x ++ y).toNat = x.toNat * 2 ^ n + y.toNat := by
  rw [BitVec.toNat_append, ← Nat.shiftLeft_add_eq_or_of_lt y.isLt, Nat.shiftLeft_eq]

/-- The byte from bit `start` up, as a quotient modulo 256. -/
theorem extractLsb'_byte_eq_ofNat {w : Nat} (v : BitVec w) (start : Nat) :
    v.extractLsb' start 8 = BitVec.ofNat 8 (v.toNat / 2 ^ start) := by
  rw [← Nat.shiftRight_eq_div_pow]
  rfl

theorem extractLsb'_lowByte_eq_ofNat {w : Nat} (v : BitVec w) : v.extractLsb' 0 8 = BitVec.ofNat 8 v.toNat := rfl

/-! ## The converter (R72 to R77) -/

theorem putBe16_toList (v : BitVec 16) :
    (putBe16 v).toList = [BitVec.ofNat 8 (v.toNat / 256), BitVec.ofNat 8 v.toNat] := by
  rw [putBe16, Vector.toList_mk, extractLsb'_byte_eq_ofNat v 8, extractLsb'_lowByte_eq_ofNat]
  rfl

theorem putBe32_toList (v : BitVec 32) :
    (putBe32 v).toList = [BitVec.ofNat 8 (v.toNat / 2 ^ 24), BitVec.ofNat 8 (v.toNat / 2 ^ 16),
      BitVec.ofNat 8 (v.toNat / 2 ^ 8), BitVec.ofNat 8 v.toNat] := by
  rw [putBe32, Vector.toList_mk, extractLsb'_byte_eq_ofNat v 24, extractLsb'_byte_eq_ofNat v 16, extractLsb'_byte_eq_ofNat v 8,
    extractLsb'_lowByte_eq_ofNat]

theorem getBe16_toNat (bs : Vector Byte 2) : (getBe16 bs).toNat = bs[0].toNat * 256 + bs[1].toNat :=
  toNat_append_eq_add bs[0] bs[1]

theorem getBe32_toNat (bs : Vector Byte 4) :
    (getBe32 bs).toNat = bs[0].toNat * 2 ^ 24 + bs[1].toNat * 2 ^ 16 + bs[2].toNat * 2 ^ 8 + bs[3].toNat := by
  rw [getBe32, toNat_append_eq_add, toNat_append_eq_add, toNat_append_eq_add]
  ring

theorem putBytes8_byte (a : BitVec 64) (k : Nat) (hk : k < 8) :
    (putBytes8 a)[k] = a.extractLsb' (56 - 8 * k) 8 := by
  interval_cases k <;> rfl

/-- Settles O51: a byte of PUT is a quotient of the word, GET is a concatenation and so a sum, and the address is
compared byte by byte. -/
theorem converterIsBigEndian : Obligations.ConverterIsBigEndian :=
  ⟨putBe16_toList, putBe32_toList, getBe16_toNat, getBe32_toNat, fun a i => putBytes8_byte a i i.isLt,
    fun bs i => getBytes8_byte bs i i.isLt⟩

/-! ## The packer (R78 to R81) -/

theorem packPaispd_toNat (acc : Bool) (spd15 : BitVec 15) :
    (packPaispd acc spd15).toNat = acc.toNat * 2 ^ 15 + spd15.toNat := by
  rw [packPaispd_eq_append, toNat_append_eq_add, BitVec.toNat_ofBool]

/-- A 16-bit word shifted right by 15 is its top bit. -/
theorem unpackPaispd_accuracy_toNat (p : BitVec 16) : (unpackPaispd p).1.toNat = p.toNat >>> 15 := by
  have htop : p.toNat / 2 ^ 15 < 2 := Nat.div_lt_of_lt_mul p.isLt
  calc (p.getLsbD 15).toNat
      = p.toNat / 2 ^ 15 % 2 := Nat.toNat_testBit p.toNat 15
    _ = p.toNat / 2 ^ 15 := Nat.mod_eq_of_lt htop
    _ = p.toNat >>> 15 := (Nat.shiftRight_eq_div_pow p.toNat 15).symm

theorem unpackPaispd_speed_toNat (p : BitVec 16) : (unpackPaispd p).2.toNat = p.toNat &&& 0x7FFF := by
  rw [unpackPaispd, BitVec.toNat_setWidth]
  exact (Nat.and_two_pow_sub_one_eq_mod p.toNat 15).symm

/-- The mask keeps bits below the byte's width, so reading the level as a byte first loses nothing. -/
theorem packTxp_toNat (lvl : Nat) : (packTxp lvl).toNat = lvl &&& 0x1F := by
  have hmask (x : Nat) : x &&& 0x1F = x % 2 ^ 5 := Nat.and_two_pow_sub_one_eq_mod x 5
  rw [packTxp, uN, BitVec.ofInt_natCast, BitVec.toNat_and, BitVec.toNat_ofNat]
  exact (hmask _).trans ((Nat.mod_mod_of_dvd lvl (by decide)).trans (hmask lvl).symm)

theorem packTxp_toNat_of_le (lvl : Nat) (h : lvl ≤ 31) : (packTxp lvl).toNat = lvl := by
  rw [packTxp_toNat]
  exact Nat.and_two_pow_sub_one_of_lt_two_pow (n := 5) (Nat.lt_succ_of_le h)

theorem unpackTxp_toNat (b : Byte) : (unpackTxp b).toNat = b.toNat &&& 0x1F := by
  rw [unpackTxp, BitVec.toNat_setWidth]
  exact (Nat.and_two_pow_sub_one_eq_mod b.toNat 5).symm

/-- Settles O53: the packed word is a concatenation, so its fields are disjoint; unpacking and the power byte are masks
with a power of two less one. -/
theorem packerFieldsOccupyTheirBits : Obligations.PackerFieldsOccupyTheirBits :=
  ⟨packPaispd_toNat, fun p => ⟨unpackPaispd_accuracy_toNat p, unpackPaispd_speed_toNat p⟩, packTxp_toNat,
    packTxp_toNat_of_le, unpackTxp_toNat⟩

end Sys2Proof.Machine
end

section
/-! The fixed-point scaler (42_fixed_point_scaler.md): a coordinate is one pattern read as signed or
unsigned, and the packed speed is bits 14 to 1 above a zero. -/

namespace Sys2Proof.Machine

/-! ## The coordinates (R90, R91) -/

theorem fxToWire_toNat (x : BitVec 32) :
    ((fxToWire x).toNat : Int) = if 0 ≤ x.toInt then x.toInt else x.toInt + 2 ^ 32 := by
  have hcond := BitVec.toInt_eq_toNat_cond x
  rw [fxToWire_eq]
  split at hcond
  · rw [if_pos (by omega)]
    exact hcond.symm
  · rw [if_neg (by omega)]
    omega

theorem fxFromWire_toInt (u : BitVec 32) :
    (fxFromWire u).toInt = if u.toNat < 2 ^ 31 then (u.toNat : Int) else (u.toNat : Int) - 2 ^ 32 := by
  have hhalf : 2 * u.toNat < 2 ^ 32 ↔ u.toNat < 2 ^ 31 := by omega
  rw [fxFromWire_eq, BitVec.toInt_eq_toNat_cond]
  exact if_congr hhalf rfl rfl

/-- Settles O55: both directions move no bit, so what is left is the two's complement reading of one pattern. -/
theorem coordinatesKeepTheirSign : Obligations.CoordinatesKeepTheirSign :=
  ⟨fxToWire_toNat, fxFromWire_toInt, fun x => (fxFromWire_eq _).trans (fxToWire_eq x),
    fun u => (fxToWire_eq _).trans (fxFromWire_eq u)⟩

/-! ## The speed (R93, R94) -/

/-- R93's pseudocode at any operand width: reading 16 bits before the low 15 loses nothing. -/
theorem spdScale_toNat_eq_halveDouble {n : Nat} (v : BitVec n) :
    ((spdScale v).toNat : Int) = halveDouble v.toInt % 2 ^ 15 := by
  rw [spdScale, setWidth_and_low15, uN, sN, BitVec.toNat_setWidth, BitVec.toNat_ofInt]
  omega

/-- `halveDouble` is the floor of R93, which for a positive divisor is Lean's `/`. -/
theorem halveDouble_eq_fdiv (i : Int) : halveDouble i = Int.fdiv i 2 * 2 := by
  rw [halveDouble, Int.fdiv_eq_ediv_of_nonneg i (by decide)]

/-- The number of `{ speed[14:1], 0 }`. -/
theorem spdScale_toNat (v : BitVec 16) : (spdScale v).toNat = v.toNat / 2 % 2 ^ 14 * 2 := by
  rw [spdScale_eq_append, toNat_append_eq_add, BitVec.extractLsb'_toNat, Nat.shiftRight_eq_div_pow]
  rfl

/-- The mask of bits 14 to 1, halved, is the mask of 14 low bits. -/
theorem and_bits14to1 (x : Nat) : x &&& 0x7FFE = x / 2 % 2 ^ 14 * 2 := by
  have hhalf : (x &&& 0x7FFE) / 2 = x / 2 % 2 ^ 14 :=
    Nat.and_div_two.trans (Nat.and_two_pow_sub_one_eq_mod (x / 2) 14)
  have heven : (x &&& 0x7FFE) % 2 = 0 := (Nat.and_mod_two_pow (n := 1)).trans (Nat.and_zero _)
  omega

theorem spdUnscale_toNat (w : BitVec 15) : (spdUnscale w).toNat = w.toNat :=
  BitVec.toNat_setWidth_of_le (by decide)

/-- Settles O56: the packed speed is 14 bits above a zero bit, which the mask of bits 14 to 1 also keeps. -/
theorem speedScaleClearsTheLowBit : Obligations.SpeedScaleClearsTheLowBit := by
  refine ⟨fun v => ⟨?_, (spdScale_toNat v).trans (and_bits14to1 _).symm, spdScale_eq_append v, ?_, ?_⟩,
    spdUnscale_toNat⟩
  · rw [spdScale_toNat_eq_halveDouble, halveDouble_eq_fdiv]
  · rw [spdScale_toNat]
    exact Nat.mul_mod_left _ 2
  · rw [spdScale_toNat]
    omega

end Sys2Proof.Machine
end

section
/-! The binary64 format (43_cbr_txpower_quantizer.md, R100): a pattern is a sign and a magnitude of 63 bits, and the
magnitudes are in the order of their values. -/

namespace Sys2Proof.Machine

/-! ## A pattern as a sign and a magnitude -/

/-- The 63 low bits of a pattern as a number, which counts the absolute values in their order. -/
def magnitude (x : BitVec 64) : Nat := x.toNat % 2 ^ 63

theorem magnitude_lt (x : BitVec 64) : magnitude x < 2 ^ 63 := Nat.mod_lt _ (by decide)

@[simp] theorem magnitude_pattern (s : Bool) (mag : Nat) (h : mag < 2 ^ 63) :
    magnitude (BitVec.ofBool s ++ BitVec.ofNat 63 mag) = mag := by
  rw [magnitude, pattern_toNat s mag h, Nat.mul_comm, Nat.mul_add_mod, Nat.mod_eq_of_lt h]

theorem fpSign_toNat (x : BitVec 64) : (fpSign x).toNat = x.toNat / 2 ^ 63 := by
  have htop : x.toNat / 2 ^ 63 < 2 := Nat.div_lt_of_lt_mul x.isLt
  exact (Nat.toNat_testBit x.toNat 63).trans (Nat.mod_eq_of_lt htop)

/-- Every pattern is built from its sign and its magnitude. -/
theorem pattern_of_sign_magnitude (x : BitVec 64) :
    BitVec.ofBool (fpSign x) ++ BitVec.ofNat 63 (magnitude x) = x := by
  apply BitVec.eq_of_toNat_eq
  rw [pattern_toNat _ _ (magnitude_lt x), fpSign_toNat, Nat.mul_comm]
  exact Nat.div_add_mod _ _

theorem fpExp_eq (x : BitVec 64) : fpExp x = magnitude x / 2 ^ 52 := by
  have h := fpExp_pattern (fpSign x) (magnitude x) (magnitude_lt x)
  rwa [pattern_of_sign_magnitude] at h

theorem fpFrac_eq (x : BitVec 64) : fpFrac x = magnitude x % 2 ^ 52 := by
  have h := fpFrac_pattern (fpSign x) (magnitude x) (magnitude_lt x)
  rwa [pattern_of_sign_magnitude] at h

/-- `2047 * 2^52` is infinity; the finite magnitudes are those below it. -/
theorem fpFinite_iff (x : BitVec 64) : fpFinite x = true ↔ magnitude x < 2047 * 2 ^ 52 := by
  have hlt := magnitude_lt x
  rw [fpFinite, fpExp_eq, bne_iff_ne]
  omega

theorem fpFinite_eq_false_iff (x : BitVec 64) : fpFinite x = false ↔ 2047 * 2 ^ 52 ≤ magnitude x := by
  rw [← Bool.not_eq_true, fpFinite_iff, not_lt]

theorem fpClass_eq_nan_iff (x : BitVec 64) : fpClass x = .nan ↔ 2047 * 2 ^ 52 < magnitude x := by
  have hlt := magnitude_lt x
  have hexp := fpExp_eq x
  have hfrac := fpFrac_eq x
  unfold fpClass
  split
  · split <;> simp <;> omega
  · split
    · split <;> simp <;> omega
    · simp; omega

/-- The absolute value of a pattern in units is that of its magnitude. -/
theorem units_eq (x : BitVec 64) :
    units x = if fpSign x then -(magnitudeUnits (magnitude x) : Int) else magnitudeUnits (magnitude x) := by
  have h := units_pattern (fpSign x) (magnitude x) (magnitude_lt x)
  rwa [pattern_of_sign_magnitude] at h

theorem natAbs_units (x : BitVec 64) : (units x).natAbs = magnitudeUnits (magnitude x) := by
  rw [units_eq]
  split <;> simp

theorem one64_cast_pos : (0 : ℚ) < one64 := by exact_mod_cast one64_pos

theorem val_nonpos_iff (x : BitVec 64) : val x ≤ 0 ↔ units x ≤ 0 := by
  rw [val, div_le_iff₀ one64_cast_pos, zero_mul, Int.cast_nonpos]

theorem one_le_val_iff (x : BitVec 64) : 1 ≤ val x ↔ (one64 : Int) ≤ units x := by
  rw [val, le_div_iff₀ one64_cast_pos, one_mul, ← Int.cast_natCast, Int.cast_le]

/-! ## The order of the magnitudes -/

/-- A magnitude is `m` quanta of `2^j` units, `m` having 53 bits unless `j` is 0. -/
theorem exists_quanta (mag : Nat) :
    ∃ j m, mag = j * 2 ^ 52 + m ∧ m < 2 ^ 53 ∧ (j = 0 ∨ 2 ^ 52 ≤ m) := by
  rcases Nat.lt_or_ge mag (2 ^ 52) with hsub | hnormal
  · exact ⟨0, mag, by omega, by omega, .inl rfl⟩
  · exact ⟨mag / 2 ^ 52 - 1, mag - (mag / 2 ^ 52 - 1) * 2 ^ 52, by omega, by omega, .inr (by omega)⟩

/-- The next magnitude is one quantum greater. -/
theorem magnitudeUnits_strictMono : StrictMono magnitudeUnits := by
  refine strictMono_nat_of_lt_succ fun mag => ?_
  obtain ⟨j, m, rfl, hm, hj⟩ := exists_quanta mag
  have hj' : j = 0 ∨ 2 ^ 52 ≤ m + 1 := hj.imp_right fun h => by omega
  rw [Nat.add_assoc, magnitudeUnits_quanta j m hm.le hj, magnitudeUnits_quanta j (m + 1) hm hj']
  exact Nat.mul_lt_mul_of_pos_right (Nat.lt_succ_self m) (by positivity)

@[simp] theorem magnitudeUnits_zero : magnitudeUnits 0 = 0 := rfl

/-- On the grid of `2^j` units, or below the 53-bit multiples of `2^j`. -/
theorem magnitudeUnits_grid (mag j : Nat) :
    (∃ t, magnitudeUnits mag = t * 2 ^ j) ∨ (0 < j ∧ magnitudeUnits mag < 2 ^ 52 * 2 ^ j) := by
  obtain ⟨i, m, rfl, hm, hi⟩ := exists_quanta mag
  rw [magnitudeUnits_quanta i m hm.le hi]
  rcases Nat.lt_or_ge i j with hlt | hge
  · refine .inr ⟨by omega, ?_⟩
    calc m * 2 ^ i < 2 ^ 53 * 2 ^ i := Nat.mul_lt_mul_of_pos_right hm (by positivity)
      _ = 2 ^ 52 * 2 ^ (i + 1) := by rw [pow_succ 2 i]; omega
      _ ≤ 2 ^ 52 * 2 ^ j := Nat.mul_le_mul_left _ (Nat.pow_le_pow_right (by decide) hlt)
  · refine .inl ⟨m * 2 ^ (i - j), ?_⟩
    rw [Nat.mul_assoc, ← pow_add, Nat.sub_add_cancel hge]

/-! ## R100's table -/

theorem fpSign_bit_toNat (x : BitVec 64) : (x.extractLsb' 63 1).toNat = (fpSign x).toNat := by
  rw [BitVec.extractLsb'_toNat, fpSign_toNat, Nat.shiftRight_eq_div_pow]
  omega

/-- The sign of R100 as the factor `(-1)^s`. -/
theorem units_eq_sign_mul (x : BitVec 64) :
    (units x : ℚ) = (-1 : ℚ) ^ (x.extractLsb' 63 1).toNat * magUnits x := by
  rw [fpSign_bit_toNat, units]
  cases fpSign x <;> simp

/-- A value in units, as a multiple of a power of two. -/
theorem val_eq_zpow (x : BitVec 64) :
    val x = (-1 : ℚ) ^ (x.extractLsb' 63 1).toNat * magUnits x * (2 : ℚ) ^ (-1074 : Int) := by
  have hone : (one64 : ℚ) = (2 : ℚ) ^ (1074 : Int) := by
    rw [one64, Nat.cast_pow, Nat.cast_ofNat]
    exact (zpow_natCast (2 : ℚ) 1074).symm
  rw [val, units_eq_sign_mul, hone, zpow_neg, div_eq_mul_inv]

/-- A normal's scale `2^(E-1)` in units is R100's `2^(E-1075)`. -/
theorem normal_scale (e : Nat) (he : 1 ≤ e) :
    ((2 ^ (e - 1) : Nat) : ℚ) * (2 : ℚ) ^ (-1074 : Int) = (2 : ℚ) ^ ((e : Int) - 1075) := by
  rw [Nat.cast_pow, Nat.cast_ofNat, ← zpow_natCast, ← zpow_add₀ two_ne_zero]
  congr 1
  omega

/-- Settles O40: the class is read off the exponent and fraction fields; the value is the magnitude's units with the
factor `2^-1074` moved into the scale. -/
theorem binaryPatternsHaveTheirValues : Obligations.BinaryPatternsHaveTheirValues := by
  intro x s e f
  have hexp : fpExp x = e := rfl
  have hfrac : fpFrac x = f := rfl
  have hval : val x = (-1 : ℚ) ^ s * magUnits x * (2 : ℚ) ^ (-1074 : Int) := val_eq_zpow x
  refine ⟨?_, ?_, ?_, ?_, ?_⟩
  · rintro ⟨he, hf⟩
    refine ⟨by simp [fpClass, hexp, hfrac, he, hf], ?_⟩
    rw [hval, magUnits, hexp, hfrac, if_pos he, hf, Nat.cast_zero, mul_zero, zero_mul]
  · rintro ⟨he, hf⟩
    refine ⟨by simp [fpClass, hexp, hfrac, he, hf], ?_⟩
    rw [hval, magUnits, hexp, hfrac, if_pos he]
  · rintro ⟨hlow, hhigh⟩
    have he0 : e ≠ 0 := by omega
    have he2047 : e ≠ 2047 := by omega
    refine ⟨by simp [fpClass, hexp, he0, he2047], ?_⟩
    rw [hval, magUnits, hexp, hfrac, if_neg he0, ← normal_scale e hlow, Nat.cast_mul]
    simp only [Nat.cast_add, Nat.cast_pow, Nat.cast_ofNat, mul_assoc]
  · rintro ⟨he, hf⟩
    simp [fpClass, hexp, hfrac, he, hf]
  · rintro ⟨he, hf⟩
    simp [fpClass, hexp, hfrac, he, hf]

end Sys2Proof.Machine
end

section
/-! `RNE64` (43_cbr_txpower_quantizer.md, R101): rounding on the grid of quanta, the nearest magnitude, the threshold of
overflow, and the signed rounding that follows. -/

namespace Sys2Proof.Machine

/-! ## Rounding to the nearest natural number -/

/-- Away from a tie the rounded quotient is less than half of `d` away. -/
theorem roundHalfEven_error_lt (n d : Nat) (hd : 0 < d) (h : 2 * (n % d) ≠ d) :
    2 * n < 2 * (roundHalfEven n d * d) + d ∧ 2 * (roundHalfEven n d * d) < 2 * n + d := by
  have hdiv := Nat.div_add_mod n d
  have hmod := Nat.mod_lt n hd
  have hsucc : (n / d + 1) * d = d * (n / d) + d := by ring
  have hcomm : n / d * d = d * (n / d) := Nat.mul_comm _ _
  rcases Nat.lt_or_gt_of_ne h with hlow | hhigh
  · have hround : roundHalfEven n d = n / d := by rw [roundHalfEven, if_pos hlow]
    rw [hround]
    omega
  · have hround : roundHalfEven n d = n / d + 1 := by
      rw [roundHalfEven, if_neg (Nat.lt_asymm hhigh), if_pos hhigh]
    rw [hround, hsucc]
    omega

section NearestNatural
variable (n d : Nat) (hd : 0 < d)
include hd

theorem abs_roundHalfEven_sub_le_half : |(roundHalfEven n d : ℚ) - (n : ℚ) / d| ≤ 1 / 2 := by
  have hdq : (0 : ℚ) < d := by exact_mod_cast hd
  obtain ⟨hlow, hhigh⟩ := roundHalfEven_error n d hd
  have hlow' : 2 * (n : ℚ) ≤ 2 * (roundHalfEven n d * d) + d := by exact_mod_cast hlow
  have hhigh' : 2 * ((roundHalfEven n d : ℚ) * d) ≤ 2 * n + d := by exact_mod_cast hhigh
  rw [abs_le, neg_le_sub_iff_le_add, div_le_iff₀ hdq, sub_le_iff_le_add', ← sub_le_iff_le_add, le_div_iff₀ hdq]
  constructor <;> linarith

/-- Every other natural number is at least half away. -/
theorem half_le_abs_sub_of_ne (t : Nat) (ht : t ≠ roundHalfEven n d) : 1 / 2 ≤ |(t : ℚ) - (n : ℚ) / d| := by
  have hdist : (1 : ℚ) ≤ |(t : ℚ) - roundHalfEven n d| := by
    exact_mod_cast Int.one_le_abs (sub_ne_zero.2 (Nat.cast_injective.ne ht))
  have hnear := abs_roundHalfEven_sub_le_half n d hd
  have htri := abs_sub_le (t : ℚ) ((n : ℚ) / d) (roundHalfEven n d)
  rw [abs_sub_comm ((n : ℚ) / d)] at htri
  linarith

theorem abs_roundHalfEven_sub_le (t : Nat) :
    |(roundHalfEven n d : ℚ) - (n : ℚ) / d| ≤ |(t : ℚ) - (n : ℚ) / d| := by
  by_cases ht : t = roundHalfEven n d
  · rw [ht]
  · exact (abs_roundHalfEven_sub_le_half n d hd).trans (half_le_abs_sub_of_ne n d hd t ht)

/-- Half away is a tie, and then the even neighbour was taken. -/
theorem roundHalfEven_even_of_half (h : 1 / 2 ≤ |(roundHalfEven n d : ℚ) - (n : ℚ) / d|) :
    roundHalfEven n d % 2 = 0 := by
  by_contra hodd
  have hdq : (0 : ℚ) < d := by exact_mod_cast hd
  obtain ⟨hlow, hhigh⟩ := roundHalfEven_error_lt n d hd fun htie => hodd (roundHalfEven_tie n d htie)
  have hlow' : 2 * (n : ℚ) < 2 * (roundHalfEven n d * d) + d := by exact_mod_cast hlow
  have hhigh' : 2 * ((roundHalfEven n d : ℚ) * d) < 2 * n + d := by exact_mod_cast hhigh
  refine absurd h (not_le.2 ?_)
  rw [abs_lt, neg_lt_sub_iff_lt_add, div_lt_iff₀ hdq, sub_lt_iff_lt_add', ← sub_lt_iff_lt_add, lt_div_iff₀ hdq]
  constructor <;> linarith

theorem le_roundHalfEven (t : Nat) (h : (t : ℚ) ≤ (n : ℚ) / d) : t ≤ roundHalfEven n d := by
  by_contra hlt
  have hsucc : (roundHalfEven n d : ℚ) + 1 ≤ t := by exact_mod_cast not_le.1 hlt
  have hnear := (abs_le.1 (abs_roundHalfEven_sub_le_half n d hd)).1
  linarith

theorem roundHalfEven_le (t : Nat) (h : (n : ℚ) / d ≤ t) : roundHalfEven n d ≤ t := by
  by_contra hlt
  have hsucc : (t : ℚ) + 1 ≤ roundHalfEven n d := by exact_mod_cast not_le.1 hlt
  have hnear := (abs_le.1 (abs_roundHalfEven_sub_le_half n d hd)).2
  linarith

/-- An even number is reached from half below it on: the tie goes to it. -/
theorem even_le_roundHalfEven_iff (t : Nat) (ht : t % 2 = 0) :
    t ≤ roundHalfEven n d ↔ (t : ℚ) - 1 / 2 ≤ (n : ℚ) / d := by
  obtain ⟨hbelow, habove⟩ := abs_le.1 (abs_roundHalfEven_sub_le_half n d hd)
  constructor
  · intro h
    have hcast : (t : ℚ) ≤ roundHalfEven n d := by exact_mod_cast h
    linarith
  · intro h
    by_contra hlt
    have hsucc : (roundHalfEven n d : ℚ) + 1 ≤ t := by exact_mod_cast not_le.1 hlt
    have hle : (t : ℚ) ≤ roundHalfEven n d + 1 := by linarith
    have hle' : t ≤ roundHalfEven n d + 1 := by exact_mod_cast hle
    have hhalf : 1 / 2 ≤ |(roundHalfEven n d : ℚ) - (n : ℚ) / d| := le_trans (by linarith) (neg_le_abs _)
    have heven := roundHalfEven_even_of_half n d hd hhalf
    omega

end NearestNatural

/-! ## The quantum of R101 -/

theorem neg1074_le_quantumExp (n d : Nat) : -1074 ≤ quantumExp n d := by
  unfold quantumExp
  split <;> omega

/-- The quotient that `rneMagnitude` rounds is `n / d` in quanta. -/
theorem scaled_quotient (n d : Nat) (k : Int) :
    ((n * 2 ^ (-k).toNat : Nat) : ℚ) / (d * 2 ^ k.toNat : Nat) = (n : ℚ) / d / (2 : ℚ) ^ k := by
  rcases le_total 0 k with hk | hk
  · obtain ⟨i, rfl⟩ := Int.eq_ofNat_of_zero_le hk
    have : (-(i : Int)).toNat = 0 := by omega
    simp only [this, Int.toNat_natCast, pow_zero, mul_one, zpow_natCast]
    push_cast
    rw [div_div]
  · obtain ⟨i, rfl⟩ : ∃ i : Nat, k = -(i : Int) := ⟨(-k).toNat, by omega⟩
    have : (-(i : Int)).toNat = 0 := by omega
    simp only [this, neg_neg, Int.toNat_natCast, pow_zero, mul_one, zpow_neg, zpow_natCast, div_inv_eq_mul]
    push_cast
    rw [div_mul_eq_mul_div]

section Quantum
variable (n d : Nat) (hn : 0 < n) (hd : 0 < d)
include hn hd

/-- `|q|` has at most 53 bits before the point, counted in its quantum. -/
theorem div_quantum_lt : (n : ℚ) / d / (2 : ℚ) ^ quantumExp n d < 2 ^ 53 := by
  have hlt := (floorLog2_spec n d hn hd).2
  have hle : floorLog2 n d + 1 ≤ 53 + quantumExp n d := by
    unfold quantumExp
    split <;> omega
  rw [div_lt_iff₀ (by positivity)]
  calc (n : ℚ) / d < (2 : ℚ) ^ (floorLog2 n d + 1) := hlt
    _ ≤ (2 : ℚ) ^ (53 + quantumExp n d) := zpow_le_zpow_right₀ one_le_two hle
    _ = 2 ^ 53 * (2 : ℚ) ^ quantumExp n d := zpow_add₀ two_ne_zero 53 _

/-- Above the subnormals it has exactly 53. -/
theorem le_div_quantum (h : quantumExp n d ≠ -1074) : 2 ^ 52 ≤ (n : ℚ) / d / (2 : ℚ) ^ quantumExp n d := by
  have hle := (floorLog2_spec n d hn hd).1
  have hexp : 52 + quantumExp n d = floorLog2 n d := by
    unfold quantumExp at h ⊢
    split at h
    · next hnormal => rw [if_pos hnormal]; omega
    · exact absurd rfl h
  rw [le_div_iff₀ (by positivity)]
  calc (2 : ℚ) ^ 52 * (2 : ℚ) ^ quantumExp n d = (2 : ℚ) ^ (52 + quantumExp n d) :=
        (zpow_add₀ two_ne_zero 52 _).symm
    _ = (2 : ℚ) ^ floorLog2 n d := by rw [hexp]
    _ ≤ (n : ℚ) / d := hle

/-- `rneMagnitude` rounds the exact units of `n / d`, which are `a / b` quanta of `2^j`, to a whole number of them. -/
theorem rneMagnitude_quanta :
    ∃ j a b : Nat, 0 < b
      ∧ rneMagnitude n d = min (j * 2 ^ 52 + roundHalfEven a b) (2047 * 2 ^ 52)
      ∧ (n : ℚ) / d * one64 = (a : ℚ) / b * 2 ^ j
      ∧ (a : ℚ) / b < 2 ^ 53 ∧ (j = 0 ∨ 2 ^ 52 ≤ (a : ℚ) / b) := by
  have hk := neg1074_le_quantumExp n d
  have hscaled := scaled_quotient n d (quantumExp n d)
  refine ⟨(quantumExp n d + 1074).toNat, _, _, Nat.mul_pos hd (by positivity), rfl, ?_, ?_, ?_⟩
  · have hone : (one64 : ℚ) = (2 : ℚ) ^ (-quantumExp n d) * 2 ^ (quantumExp n d + 1074).toNat := by
      rw [one64, Nat.cast_pow, Nat.cast_ofNat, ← zpow_natCast, ← zpow_natCast, ← zpow_add₀ two_ne_zero]
      congr 1
      omega
    rw [hscaled, hone, zpow_neg, div_eq_mul_inv _ ((2 : ℚ) ^ quantumExp n d), mul_assoc]
  · rw [hscaled]
    exact div_quantum_lt n d hn hd
  · rw [hscaled]
    rcases eq_or_ne (quantumExp n d) (-1074) with hsub | hnormal
    · exact .inl (by omega)
    · exact .inr (le_div_quantum n d hn hd hnormal)

end Quantum

/-! ## The rounded magnitude -/

theorem rneMagnitude_le (n d : Nat) : rneMagnitude n d ≤ 2047 * 2 ^ 52 := Nat.min_le_right _ _

theorem rneMagnitude_lt (n d : Nat) : rneMagnitude n d < 2 ^ 63 :=
  (rneMagnitude_le n d).trans_lt (by decide)

section Quanta
variable {j a b : Nat} (hb : 0 < b) (hhigh : (a : ℚ) / b < 2 ^ 53) (hlow : j = 0 ∨ 2 ^ 52 ≤ (a : ℚ) / b)
include hb hhigh hlow

/-- The place of the rounded value holds that value. -/
theorem magnitudeUnits_rounded :
    magnitudeUnits (j * 2 ^ 52 + roundHalfEven a b) = roundHalfEven a b * 2 ^ j := by
  refine magnitudeUnits_quanta _ _ (roundHalfEven_le a b hb _ ?_) (hlow.imp_right fun h => le_roundHalfEven a b hb _ ?_)
  · exact_mod_cast hhigh.le
  · exact_mod_cast h

omit hhigh in
/-- No magnitude is nearer: on the grid by rounding, below it because `2^52` quanta lie between. An equally near other
value is on the grid, so its distance and the rounded one's are half a quantum. -/
theorem rounded_nearest (mag : Nat) :
    |(roundHalfEven a b * 2 ^ j : ℚ) - (a : ℚ) / b * 2 ^ j| ≤ |(magnitudeUnits mag : ℚ) - (a : ℚ) / b * 2 ^ j|
      ∧ (|(roundHalfEven a b * 2 ^ j : ℚ) - (a : ℚ) / b * 2 ^ j|
            = |(magnitudeUnits mag : ℚ) - (a : ℚ) / b * 2 ^ j| →
          magnitudeUnits mag ≠ roundHalfEven a b * 2 ^ j → roundHalfEven a b % 2 = 0) := by
  have hpos : (0 : ℚ) < 2 ^ j := by positivity
  have hscale (t : ℚ) : |t * 2 ^ j - (a : ℚ) / b * 2 ^ j| = |t - (a : ℚ) / b| * 2 ^ j := by
    rw [← sub_mul, abs_mul, abs_of_pos hpos]
  rw [hscale]
  rcases magnitudeUnits_grid mag j with ⟨t, ht⟩ | ⟨hj, hbelow⟩
  · have hcast : (magnitudeUnits mag : ℚ) = t * 2 ^ j := by exact_mod_cast ht
    rw [hcast, hscale]
    refine ⟨mul_le_mul_of_nonneg_right (abs_roundHalfEven_sub_le a b hb t) hpos.le, fun heq hne => ?_⟩
    have hother : t ≠ roundHalfEven a b := fun h => hne (by rw [ht, h])
    have heq' := mul_right_cancel₀ hpos.ne' heq
    exact roundHalfEven_even_of_half a b hb (heq' ▸ half_le_abs_sub_of_ne a b hb t hother)
  · have hquot : (2 : ℚ) ^ 52 ≤ (a : ℚ) / b := hlow.resolve_left hj.ne'
    have hbelow' : (magnitudeUnits mag : ℚ) < 2 ^ 52 * 2 ^ j := by exact_mod_cast hbelow
    have hlt :
        |(roundHalfEven a b : ℚ) - (a : ℚ) / b| * 2 ^ j < |(magnitudeUnits mag : ℚ) - (a : ℚ) / b * 2 ^ j| := by
      have hnear : |(roundHalfEven a b : ℚ) - (a : ℚ) / b| ≤ (a : ℚ) / b - 2 ^ 52 := by
        have h := abs_roundHalfEven_sub_le a b hb (2 ^ 52)
        rwa [Nat.cast_pow, Nat.cast_ofNat, abs_sub_comm (2 ^ 52 : ℚ), abs_of_nonneg (sub_nonneg.2 hquot)] at h
      have hmul := mul_le_mul_of_nonneg_right hnear hpos.le
      have hdist := neg_le_abs ((magnitudeUnits mag : ℚ) - (a : ℚ) / b * 2 ^ j)
      rw [sub_mul] at hmul
      linarith
    exact ⟨hlt.le, fun heq => absurd heq hlt.ne⟩

end Quanta

section Magnitude
variable (n d : Nat) (hn : 0 < n) (hd : 0 < d)
include hn hd

/-- A finite rounded magnitude is at least as near as every magnitude. -/
theorem rneMagnitude_nearest (hfin : rneMagnitude n d < 2047 * 2 ^ 52) (mag : Nat) :
    |(magnitudeUnits (rneMagnitude n d) : ℚ) - (n : ℚ) / d * one64|
        ≤ |(magnitudeUnits mag : ℚ) - (n : ℚ) / d * one64|
      ∧ (|(magnitudeUnits (rneMagnitude n d) : ℚ) - (n : ℚ) / d * one64|
            = |(magnitudeUnits mag : ℚ) - (n : ℚ) / d * one64| →
          magnitudeUnits mag ≠ magnitudeUnits (rneMagnitude n d) → rneMagnitude n d % 2 = 0) := by
  obtain ⟨j, a, b, hb, hround, hunits, hhigh, hlow⟩ := rneMagnitude_quanta n d hn hd
  have hplace : rneMagnitude n d = j * 2 ^ 52 + roundHalfEven a b := by omega
  have hparity : (j * 2 ^ 52 + roundHalfEven a b) % 2 = roundHalfEven a b % 2 := by omega
  rw [hplace, hunits, hparity, magnitudeUnits_rounded hb hhigh hlow, Nat.cast_mul, Nat.cast_pow, Nat.cast_ofNat]
  exact rounded_nearest hb hlow mag

end Magnitude

/-! ## The threshold of overflow -/

/-- R101's threshold in units: half a quantum below `2^53` quanta of the topmost exponent. -/
theorem overflow_threshold_units : ((2 : ℚ) ^ 1024 - 2 ^ 970) * one64 = (2 ^ 53 - 1 / 2) * 2 ^ 2045 := by
  have hmax : (2 : ℚ) ^ 1024 = 2 ^ 53 * (2 * 2 ^ 970) := by rw [← pow_succ', ← pow_add]
  have htop : (2 : ℚ) ^ 2045 = 2 * 2 ^ 970 * 2 ^ 1074 := by rw [← pow_succ', ← pow_add]
  rw [one64, Nat.cast_pow, Nat.cast_ofNat, hmax, htop]
  generalize (2 : ℚ) ^ 970 = x, (2 : ℚ) ^ 1074 = y
  ring

/-- Quotients of the exponents below the topmost stay below the threshold. -/
theorem quanta_lt_threshold {x : ℚ} {j : Nat} (hx : x < 2 ^ 53) (hj : j < 2045) :
    x * 2 ^ j < (2 ^ 53 - 1 / 2) * 2 ^ 2045 := by
  have hpos : (0 : ℚ) < 2 ^ j := by positivity
  have hstep : (2 : ℚ) ^ (j + 1) ≤ 2 ^ 2045 := pow_le_pow_right₀ one_le_two hj
  rw [pow_succ] at hstep
  generalize (2 : ℚ) ^ 2045 = top at hstep ⊢
  have hmul := mul_lt_mul_of_pos_right hx hpos
  linarith

/-- Quotients of the exponents above it reach the threshold. -/
theorem threshold_le_quanta {x : ℚ} {j : Nat} (hx : 2 ^ 52 ≤ x) (hj : 2045 < j) :
    (2 ^ 53 - 1 / 2) * 2 ^ 2045 ≤ x * 2 ^ j := by
  have hpos : (0 : ℚ) < 2 ^ 2045 := by positivity
  have hstep : (2 : ℚ) ^ (2045 + 1) ≤ 2 ^ j := pow_le_pow_right₀ one_le_two hj
  rw [pow_succ] at hstep
  generalize (2 : ℚ) ^ 2045 = top at hpos hstep ⊢
  have hmul := mul_le_mul hx hstep (by positivity) (le_trans (by positivity) hx)
  linarith

theorem rneMagnitude_overflow_iff (n d : Nat) (hn : 0 < n) (hd : 0 < d) :
    2047 * 2 ^ 52 ≤ rneMagnitude n d ↔ (2 : ℚ) ^ 1024 - 2 ^ 970 ≤ (n : ℚ) / d := by
  obtain ⟨j, a, b, hb, hround, hunits, hhigh, hlow⟩ := rneMagnitude_quanta n d hn hd
  have hm : roundHalfEven a b ≤ 2 ^ 53 := roundHalfEven_le a b hb _ (by exact_mod_cast hhigh.le)
  rw [hround, ← mul_le_mul_iff_left₀ one64_cast_pos, overflow_threshold_units, hunits]
  rcases lt_trichotomy j 2045 with hbelow | rfl | habove
  · exact iff_of_false (by omega) (not_le.2 (quanta_lt_threshold hhigh hbelow))
  · have heven := even_le_roundHalfEven_iff a b hb (2 ^ 53) (by decide)
    rw [Nat.cast_pow, Nat.cast_ofNat] at heven
    rw [mul_le_mul_iff_left₀ (by positivity), ← heven]
    omega
  · have hquot : (2 : ℚ) ^ 52 ≤ (a : ℚ) / b := hlow.resolve_left (by omega)
    have hm' : 2 ^ 52 ≤ roundHalfEven a b := le_roundHalfEven a b hb _ (by exact_mod_cast hquot)
    exact iff_of_true (by omega) (threshold_le_quanta hquot habove)

end Sys2Proof.Machine
end

section
/-! `RNE64` (R101) on signed rationals, by the sign and the magnitude of the pattern it gives. -/

namespace Sys2Proof.Machine

/-! ## The pattern of a rounded value -/

@[simp] theorem rne64_zero (den : Nat) : rne64 0 den = 0#64 := if_pos rfl

section Pattern
variable (num : Int) (den : Nat) (hnum : num ≠ 0)
include hnum

theorem rne64_eq_pattern :
    rne64 num den = BitVec.ofBool (decide (num < 0)) ++ BitVec.ofNat 63 (rneMagnitude num.natAbs den) := if_neg hnum

theorem magnitude_rne64 : magnitude (rne64 num den) = rneMagnitude num.natAbs den := by
  rw [rne64_eq_pattern num den hnum, magnitude_pattern _ _ (rneMagnitude_lt _ _)]

theorem fpSign_rne64 : fpSign (rne64 num den) = decide (num < 0) := by
  rw [rne64_eq_pattern num den hnum, fpSign_pattern]

end Pattern

theorem fpClass_rne64_ne_nan (num : Int) (den : Nat) : fpClass (rne64 num den) ≠ .nan := by
  rw [Ne, fpClass_eq_nan_iff, not_lt]
  by_cases hnum : num = 0
  · rw [hnum, rne64_zero]
    decide
  · rw [magnitude_rne64 num den hnum]
    exact rneMagnitude_le _ _

theorem abs_num_div (num : Int) (den : Nat) : |(num : ℚ) / den| = (num.natAbs : ℚ) / den := by
  rw [abs_div, Nat.abs_cast, Nat.cast_natAbs, Int.cast_abs]

theorem overflow_threshold_pos : (0 : ℚ) < 2 ^ 1024 - 2 ^ 970 :=
  sub_pos.2 (pow_lt_pow_right₀ one_lt_two (by decide))

/-- `RNE64` overflows exactly from the threshold on (R101). -/
theorem rne64_infinite_iff (num : Int) (den : Nat) (hden : 0 < den) :
    fpFinite (rne64 num den) = false ↔ (2 : ℚ) ^ 1024 - 2 ^ 970 ≤ |(num : ℚ) / den| := by
  by_cases hnum : num = 0
  · rw [hnum, rne64_zero, Int.cast_zero, zero_div, abs_zero]
    exact iff_of_false (by decide) (not_le.2 overflow_threshold_pos)
  · rw [fpFinite_eq_false_iff, magnitude_rne64 num den hnum, abs_num_div]
    exact rneMagnitude_overflow_iff _ _ (Int.natAbs_pos.2 hnum) hden

/-! ## Distances between signed values -/

theorem val_mul_one64 (x : BitVec 64) : val x * one64 = units x := div_mul_cancel₀ _ one64_cast_pos.ne'

/-- Two signed numbers by their absolute values: the distance of these where the signs agree, else their sum. -/
theorem abs_signed_sub (s t : Bool) {y q : ℚ} (hy : 0 ≤ y) (hq : 0 ≤ q) :
    |(if s then -y else y) - (if t then -q else q)| = if s = t then |y - q| else y + q := by
  cases s <;> cases t
  · simp
  · simp [abs_of_nonneg (add_nonneg hy hq)]
  · have hneg : -y - q = -(y + q) := by ring
    simp [hneg, abs_of_nonneg (add_nonneg hy hq), -neg_add_rev]
  · rw [if_pos rfl, if_pos rfl, if_pos rfl, neg_sub_neg, abs_sub_comm]

theorem units_cast (x : BitVec 64) :
    (units x : ℚ) = if fpSign x then -(magnitudeUnits (magnitude x) : ℚ) else magnitudeUnits (magnitude x) := by
  rw [units_eq]
  cases fpSign x <;> simp

theorem num_div_mul_one64 (num : Int) (den : Nat) :
    (num : ℚ) / den * one64
      = if decide (num < 0) then -((num.natAbs : ℚ) / den * one64) else (num.natAbs : ℚ) / den * one64 := by
  rw [Nat.cast_natAbs]
  by_cases h : num < 0
  · rw [if_pos (decide_eq_true h), abs_of_neg h, Int.cast_neg, neg_div, neg_mul, neg_neg]
  · rw [if_neg (by simpa using h), abs_of_nonneg (not_lt.1 h)]

/-- `|num / den|` in units is not negative. -/
theorem natAbs_div_mul_one64_nonneg (num : Int) (den : Nat) : 0 ≤ (num.natAbs : ℚ) / den * one64 :=
  mul_nonneg (by positivity) one64_cast_pos.le

section Distance
variable (x : BitVec 64) (num : Int) (den : Nat)

/-- The distance of a pattern's value from `num / den`, in units. -/
theorem abs_val_sub_mul_one64 :
    |val x - (num : ℚ) / den| * one64
      = if fpSign x = decide (num < 0)
        then |(magnitudeUnits (magnitude x) : ℚ) - (num.natAbs : ℚ) / den * one64|
        else magnitudeUnits (magnitude x) + (num.natAbs : ℚ) / den * one64 := by
  rw [← abs_signed_sub _ _ (Nat.cast_nonneg _) (natAbs_div_mul_one64_nonneg num den), ← num_div_mul_one64,
    ← units_cast, ← val_mul_one64, ← sub_mul, abs_mul, abs_of_pos one64_cast_pos]

/-- It is at least the distance of the magnitudes. -/
theorem abs_magnitude_sub_le :
    |(magnitudeUnits (magnitude x) : ℚ) - (num.natAbs : ℚ) / den * one64|
      ≤ |val x - (num : ℚ) / den| * one64 := by
  rw [abs_val_sub_mul_one64]
  split
  · exact le_rfl
  · have hunits : (0 : ℚ) ≤ magnitudeUnits (magnitude x) := Nat.cast_nonneg _
    have hratio := natAbs_div_mul_one64_nonneg num den
    rw [abs_le]
    constructor <;> linarith

end Distance

theorem val_eq_zero_of_magnitudeUnits (x : BitVec 64) (h : magnitudeUnits (magnitude x) = 0) : val x = 0 := by
  have hzero : units x = 0 := Int.natAbs_eq_zero.1 ((natAbs_units x).trans h)
  rw [val, hzero, Int.cast_zero, zero_div]

theorem val_eq_of_sign_of_magnitudeUnits (x y : BitVec 64) (hsign : fpSign x = fpSign y)
    (hunits : magnitudeUnits (magnitude x) = magnitudeUnits (magnitude y)) : val x = val y := by
  rw [val, val, units_eq, units_eq, hsign, hunits]

theorem val_zero : val 0#64 = 0 := val_eq_zero_of_magnitudeUnits _ rfl

section Nearest
variable (num : Int) (den : Nat)

theorem abs_val_rne64_sub_mul_one64 (hnum : num ≠ 0) :
    |val (rne64 num den) - (num : ℚ) / den| * one64
      = |(magnitudeUnits (rneMagnitude num.natAbs den) : ℚ) - (num.natAbs : ℚ) / den * one64| := by
  rw [abs_val_sub_mul_one64, if_pos (fpSign_rne64 num den hnum), magnitude_rne64 num den hnum]

variable (hden : 0 < den) (hfin : fpFinite (rne64 num den) = true) (y : BitVec 64)
include hden hfin

/-- Equally near and of the same magnitude is the same value: with opposite signs the distance would be a sum, and
zero nearer than that unless the magnitude is zero. -/
theorem val_eq_rne64_of_equally_near (hnum : num ≠ 0)
    (heq : |val (rne64 num den) - (num : ℚ) / den| * one64 = |val y - (num : ℚ) / den| * one64)
    (hunits : magnitudeUnits (magnitude y) = magnitudeUnits (magnitude (rne64 num den))) :
    val y = val (rne64 num den) := by
  by_cases hsame : fpSign y = decide (num < 0)
  · exact val_eq_of_sign_of_magnitudeUnits y _ (hsame.trans (fpSign_rne64 num den hnum).symm) hunits
  · rw [fpFinite_iff, magnitude_rne64 num den hnum] at hfin
    have hzero := (rneMagnitude_nearest _ den (Int.natAbs_pos.2 hnum) hden hfin 0).1
    have hratio := natAbs_div_mul_one64_nonneg num den
    rw [← abs_val_rne64_sub_mul_one64 num den hnum, heq, abs_val_sub_mul_one64, if_neg hsame, magnitudeUnits_zero,
      Nat.cast_zero, zero_sub, abs_neg, abs_of_nonneg hratio] at hzero
    have hle : (magnitudeUnits (magnitude y) : ℚ) ≤ 0 := by linarith
    have hy : magnitudeUnits (magnitude y) = 0 := Nat.le_zero.1 (by exact_mod_cast hle)
    rw [val_eq_zero_of_magnitudeUnits y hy, val_eq_zero_of_magnitudeUnits _ (hunits ▸ hy)]

/-- No pattern's value is nearer than the rounded one, and an equally near other value means an even significand
(R101). -/
theorem rne64_nearest :
    |val (rne64 num den) - (num : ℚ) / den| ≤ |val y - (num : ℚ) / den|
      ∧ (|val (rne64 num den) - (num : ℚ) / den| = |val y - (num : ℚ) / den| → val y ≠ val (rne64 num den) →
          fpFrac (rne64 num den) % 2 = 0) := by
  by_cases hnum : num = 0
  · rw [hnum, rne64_zero, val_zero, Int.cast_zero, zero_div, sub_zero, abs_zero, sub_zero]
    exact ⟨abs_nonneg _, fun heq hne => absurd (abs_eq_zero.1 heq.symm) hne⟩
  · have hmag := magnitude_rne64 num den hnum
    have hround := abs_val_rne64_sub_mul_one64 num den hnum
    have hdist := abs_magnitude_sub_le y num den
    have hfin' := (fpFinite_iff _).1 hfin
    rw [hmag] at hfin'
    obtain ⟨hle, htie⟩ := rneMagnitude_nearest _ den (Int.natAbs_pos.2 hnum) hden hfin' (magnitude y)
    constructor
    · rw [← mul_le_mul_iff_left₀ one64_cast_pos, hround]
      exact hle.trans hdist
    · intro heq hne
      rw [← mul_left_inj' one64_cast_pos.ne'] at heq
      have hother : magnitudeUnits (magnitude y) ≠ magnitudeUnits (rneMagnitude num.natAbs den) := fun hunits =>
        hne (val_eq_rne64_of_equally_near num den hden hfin y hnum heq (hmag ▸ hunits))
      have heven := htie (le_antisymm hle (hdist.trans (heq.ge.trans hround.le))) hother
      rw [fpFrac_eq, hmag]
      omega

end Nearest

/-! ## A binary64 value is its own rounding -/

/-- The greatest finite value is below the threshold of overflow. -/
theorem magnitudeUnits_lt_threshold (mag : Nat) (h : mag < 2047 * 2 ^ 52) :
    (magnitudeUnits mag : ℚ) / one64 < 2 ^ 1024 - 2 ^ 970 := by
  obtain ⟨j, m, rfl, hm, hj⟩ := exists_quanta mag
  have hpos : (0 : ℚ) < 2 ^ j := by positivity
  have hstep : (2 : ℚ) ^ j ≤ 2 ^ 2045 := pow_le_pow_right₀ one_le_two (by omega)
  have hm' : (m : ℚ) + 1 ≤ 2 ^ 53 := by exact_mod_cast hm
  rw [div_lt_iff₀ one64_cast_pos, overflow_threshold_units, magnitudeUnits_quanta j m hm.le hj, Nat.cast_mul,
    Nat.cast_pow, Nat.cast_ofNat]
  calc (m : ℚ) * 2 ^ j < (2 ^ 53 - 1 / 2) * 2 ^ j := mul_lt_mul_of_pos_right (by linarith) hpos
    _ ≤ (2 ^ 53 - 1 / 2) * 2 ^ 2045 := mul_le_mul_of_nonneg_left hstep (by norm_num)

/-- The rounded magnitude of a finite magnitude's own value is that magnitude. -/
theorem rneMagnitude_magnitudeUnits (mag : Nat) (hfin : mag < 2047 * 2 ^ 52) (hpos : 0 < magnitudeUnits mag) :
    rneMagnitude (magnitudeUnits mag) one64 = mag := by
  have hround : rneMagnitude (magnitudeUnits mag) one64 < 2047 * 2 ^ 52 := by
    rw [← not_le, rneMagnitude_overflow_iff _ _ hpos one64_pos, not_le]
    exact magnitudeUnits_lt_threshold mag hfin
  obtain ⟨hle, -⟩ := rneMagnitude_nearest _ _ hpos one64_pos hround mag
  rw [div_mul_cancel₀ _ one64_cast_pos.ne', sub_self, abs_zero, abs_nonpos_iff, sub_eq_zero, Nat.cast_inj] at hle
  exact magnitudeUnits_strictMono.injective hle

theorem rne64_units (x : BitVec 64) (hfin : fpFinite x = true) (hval : val x ≠ 0) : rne64 (units x) one64 = x := by
  have hunits : units x ≠ 0 := fun h => hval (by rw [val, h, Int.cast_zero, zero_div])
  have hpos : 0 < magnitudeUnits (magnitude x) := by
    rw [← natAbs_units]
    exact Int.natAbs_pos.2 hunits
  have hsign : decide (units x < 0) = fpSign x := by
    rw [units_eq]
    cases fpSign x
    · simp
    · simpa using hpos
  rw [rne64_eq_pattern _ _ hunits, hsign, natAbs_units, rneMagnitude_magnitudeUnits _ ((fpFinite_iff x).1 hfin) hpos,
    pattern_of_sign_magnitude]

/-- Settles O41: the rounded magnitude is nearest among the magnitudes and even at a tie, its place is infinity from
the threshold on, and the sign is carried over. -/
theorem rneRoundsToNearestEven : Obligations.RneRoundsToNearestEven := by
  refine ⟨fun num den hden => ⟨?_, fpClass_rne64_ne_nan num den, fun hfin y _ => rne64_nearest num den hden hfin y,
    rne64_infinite_iff num den hden, fun hinf => ?_⟩, rne64_units⟩
  · rintro rfl
    exact rne64_zero den
  · refine fpSign_rne64 num den fun hnum => ?_
    rw [hnum, rne64_zero] at hinf
    exact absurd hinf (by decide)

end Sys2Proof.Machine
end

section
/-! The order of rounded values and the decoded ratio (R101, R108): `RNE64` keeps the order of its arguments, and the
ratio of a byte other than 0 and 255 is not dyadic, so it is no tie. -/

namespace Sys2Proof.Machine

/-! ## `RNE64` keeps the order -/

/-- The nearer of two numbers is on its own side of their midpoint. -/
theorem add_le_two_mul_of_nearer {a b q : ℚ} (hlt : b < a) (h : |a - q| ≤ |b - q|) : a + b ≤ 2 * q := by
  have ha := le_abs_self (a - q)
  rcases abs_cases (b - q) with ⟨hb, -⟩ | ⟨hb, -⟩ <;> linarith

theorem two_mul_le_add_of_nearer {a b q : ℚ} (hlt : a < b) (h : |a - q| ≤ |b - q|) : 2 * q ≤ a + b := by
  have ha := neg_le_abs (a - q)
  rcases abs_cases (b - q) with ⟨hb, -⟩ | ⟨hb, -⟩ <;> linarith

/-- A greater argument rounds to no lesser value: both roundings would have to be on the wrong side of the midpoint. -/
theorem val_rne64_mono {m n : Int} {den : Nat} (hden : 0 < den) (hle : m ≤ n) (hm : fpFinite (rne64 m den) = true)
    (hn : fpFinite (rne64 n den) = true) : val (rne64 m den) ≤ val (rne64 n den) := by
  rcases hle.eq_or_lt with rfl | hlt
  · exact le_rfl
  by_contra hgt
  have hmid₁ := add_le_two_mul_of_nearer (not_le.1 hgt) (rne64_nearest m den hden hm (rne64 n den)).1
  have hmid₂ := two_mul_le_add_of_nearer (not_le.1 hgt) (rne64_nearest n den hden hn (rne64 m den)).1
  have hdenq : (0 : ℚ) < den := by exact_mod_cast hden
  have harg : (m : ℚ) / den < (n : ℚ) / den := div_lt_div_of_pos_right (by exact_mod_cast hlt) hdenq
  linarith

theorem small_lt_overflow_threshold : (256 : ℚ) < 2 ^ 1024 - 2 ^ 970 := by
  have hpow : (2 : ℚ) ^ 1024 = 2 ^ 54 * 2 ^ 970 := by rw [← pow_add]
  have hone : (1 : ℚ) ≤ 2 ^ 970 := one_le_pow₀ one_le_two
  rw [hpow]
  generalize (2 : ℚ) ^ 970 = x at hone ⊢
  linarith

/-- Nothing the quantisers round in [0, 255] overflows (R104). -/
theorem rne64_finite_of_le {num : Int} {den : Nat} (hden : 0 < den) (hnum : 0 ≤ num) (hle : num ≤ 256 * den) :
    fpFinite (rne64 num den) = true := by
  have hdenq : (0 : ℚ) < den := by exact_mod_cast hden
  have hnumq : (0 : ℚ) ≤ num := by exact_mod_cast hnum
  have hsmall : (num : ℚ) / den ≤ 256 := by
    rw [div_le_iff₀ hdenq]
    exact_mod_cast hle
  rw [← Bool.not_eq_false, rne64_infinite_iff num den hden, not_le, abs_of_nonneg (by positivity)]
  exact hsmall.trans_lt small_lt_overflow_threshold

/-! ## `DQ_CBR` (R108) -/

theorem dqCbr_zero : dqCbr 0#8 = 0#64 := rne64_zero 255

theorem dqCbr_full : dqCbr 255#8 = 0x3FF0000000000000#64 := by decide +kernel

theorem val_one : val 0x3FF0000000000000#64 = 1 := by decide +kernel

section Ratio
variable (b : Byte)

theorem dqCbr_finite : fpFinite (dqCbr b) = true :=
  rne64_finite_of_le (by decide) (by omega) (by omega)

/-- A greater byte decodes to no lesser ratio. -/
theorem val_dqCbr_mono {a b : Byte} (h : a.toNat ≤ b.toNat) : val (dqCbr a) ≤ val (dqCbr b) :=
  val_rne64_mono (by decide) (by exact_mod_cast h) (dqCbr_finite a) (dqCbr_finite b)

theorem val_dqCbr_nonneg : 0 ≤ val (dqCbr b) := by
  have h : val (dqCbr 0#8) ≤ val (dqCbr b) := val_dqCbr_mono (Nat.zero_le _)
  rwa [dqCbr_zero, val_zero] at h

theorem val_dqCbr_le_one : val (dqCbr b) ≤ 1 := by
  have h : val (dqCbr b) ≤ val (dqCbr 255#8) := val_dqCbr_mono (Nat.le_of_lt_succ b.isLt)
  rwa [dqCbr_full, val_one] at h

/-- `2 b / 255` is a whole number of units for the bytes 0 and 255 only: 255 is odd. -/
theorem byte_eq_of_dyadic (z : Int) (h : (z : ℚ) / one64 = 2 * ((b.toNat : ℚ) / 255)) : b = 0#8 ∨ b = 255#8 := by
  have hq : (z : ℚ) * 255 = b.toNat * (2 * one64) := by
    rw [div_eq_iff one64_cast_pos.ne'] at h
    rw [h]
    ring
  have hz : z * 255 = b.toNat * (2 * one64) := by exact_mod_cast hq
  have hdvd : 255 ∣ b.toNat * (2 * one64) :=
    Int.natCast_dvd_natCast.1 ⟨z, by rw [Nat.cast_mul, Nat.cast_mul, Nat.cast_ofNat, ← hz, mul_comm]; rfl⟩
  have hpow (k : Nat) : Nat.Coprime 255 (2 * 2 ^ k) :=
    Nat.Coprime.mul_right (by decide) (Nat.Coprime.pow_right k (by decide))
  have hodd : Nat.Coprime 255 (2 * one64) := by
    rw [one64]
    exact hpow 1074
  have hbyte : b.toNat = 0 ∨ b.toNat = 255 := by
    have hd := hodd.dvd_of_dvd_mul_right hdvd
    have hlt := b.isLt
    omega
  exact hbyte.imp (fun h => BitVec.eq_of_toNat_eq h) fun h => BitVec.eq_of_toNat_eq h

theorem val_dqCbr_eq_iff : val (dqCbr b) = (b.toNat : ℚ) / 255 ↔ b = 0#8 ∨ b = 255#8 := by
  constructor
  · intro h
    refine byte_eq_of_dyadic b (2 * units (dqCbr b)) ?_
    rw [← h, val, Int.cast_mul, Int.cast_ofNat, mul_div_assoc]
  · rintro (rfl | rfl)
    · rw [dqCbr_zero, val_zero]
      norm_num
    · rw [dqCbr_full, val_one]
      norm_num

/-- Another value as near would put `b / 255` at the midpoint of two binary64 values. -/
theorem dqCbr_strictly_nearest (y : BitVec 64) (hne : val y ≠ val (dqCbr b)) :
    |val (dqCbr b) - (b.toNat : ℚ) / 255| < |val y - (b.toNat : ℚ) / 255| := by
  have hle : |val (dqCbr b) - (b.toNat : ℚ) / 255| ≤ |val y - (b.toNat : ℚ) / 255| := by
    have h := (rne64_nearest b.toNat 255 (by decide) (dqCbr_finite b) y).1
    rwa [Int.cast_natCast, Nat.cast_ofNat] at h
  refine lt_of_le_of_ne hle fun heq => ?_
  have hmid : val y + val (dqCbr b) = 2 * ((b.toNat : ℚ) / 255) := by
    rcases lt_or_gt_of_ne hne with hlt | hgt
    · linarith [add_le_two_mul_of_nearer hlt heq.le, two_mul_le_add_of_nearer hlt heq.ge]
    · linarith [two_mul_le_add_of_nearer hgt heq.le, add_le_two_mul_of_nearer hgt heq.ge]
  have hexact : val (dqCbr b) = (b.toNat : ℚ) / 255 := by
    rw [val_dqCbr_eq_iff]
    refine byte_eq_of_dyadic b (units y + units (dqCbr b)) ?_
    rw [← hmid, val, val, Int.cast_add, add_div]
  rw [hexact] at hmid hne
  exact hne (by linarith)

end Ratio

/-- Settles O42: `RNE64` is nearest and a tie would make `b / 255` dyadic; the counts are those of the 256 bytes. -/
theorem decodedRatioIsTheNearestBinary64 : Obligations.DecodedRatioIsTheNearestBinary64 := by
  refine ⟨fun b => ⟨dqCbr_finite b, val_dqCbr_nonneg b, val_dqCbr_le_one b, fun y _ => dqCbr_strictly_nearest b y,
    val_dqCbr_eq_iff b⟩, dqCbr_zero, dqCbr_full, ?_⟩
  decide +kernel

end Sys2Proof.Machine
end

section
/-! The quantisers (R102 to R106, R110, R111): rounding half away from zero, the transmit power, the hop-0 ratio, and
operands that are not finite. -/

namespace Sys2Proof.Machine

/-! ## `round_half_away` (R111) -/

/-- The integer division of R111 is the floor of `q + 1/2`, whatever the size `o` of a unit. -/
theorem half_up_eq_floor (q : Int) {o : Nat} (ho : 0 < o) : (2 * q + o) / (2 * o) = ⌊(q : ℚ) / o + 1 / 2⌋ := by
  have hquot : (q : ℚ) / o + 1 / 2 = ((2 * q + o : Int) : ℚ) / ((2 * o : Nat) : ℚ) := by
    push_cast
    field_simp
  rw [hquot, Rat.floor_intCast_div_natCast, Nat.cast_mul, Nat.cast_ofNat]

theorem roundHalfAway_of_nonneg {q : Int} (hq : 0 ≤ q) : roundHalfAway q = ⌊(q : ℚ) / one64 + 1 / 2⌋ := by
  rw [roundHalfAway, if_pos hq, half_up_eq_floor _ one64_pos]

theorem roundHalfAway_of_neg {q : Int} (hq : q < 0) : roundHalfAway q = -⌊-((q : ℚ) / one64) + 1 / 2⌋ := by
  rw [roundHalfAway, if_neg (not_le.2 hq), half_up_eq_floor _ one64_pos, Int.cast_neg, neg_div]

/-- The floor of `v + 1/2` is at most half away from `v`. -/
theorem abs_floor_half_up_sub_le (v : ℚ) : |(⌊v + 1 / 2⌋ : ℚ) - v| ≤ 1 / 2 := by
  have hlow := Int.floor_le (v + 1 / 2)
  have hhigh := Int.lt_floor_add_one (v + 1 / 2)
  rw [abs_le]
  constructor <;> linarith

theorem abs_roundHalfAway_sub_le (q : Int) : |(roundHalfAway q : ℚ) - (q : ℚ) / one64| ≤ 1 / 2 := by
  rcases le_or_gt 0 q with hq | hq
  · rw [roundHalfAway_of_nonneg hq]
    exact abs_floor_half_up_sub_le _
  · have h := abs_floor_half_up_sub_le (-((q : ℚ) / one64))
    rw [roundHalfAway_of_neg hq, Int.cast_neg, abs_sub_comm, sub_neg_eq_add, add_comm, ← sub_neg_eq_add]
    exact h

/-- Settles O50: on either side of zero the integer division is the floor it stands for. -/
theorem roundHalfAwayIsExact : Obligations.RoundHalfAwayIsExact := fun q =>
  ⟨roundHalfAway_of_nonneg, roundHalfAway_of_neg, abs_roundHalfAway_sub_le q, rfl⟩

/-! ## `Q_TXP` (R110) -/

theorem fpClass_of_finite {x : BitVec 64} (h : fpFinite x = true) : fpClass x ≠ .nan ∧ fpClass x ≠ .infinity := by
  have hexp : fpExp x ≠ 2047 := by simpa [fpFinite] using h
  have hclass : fpClass x
      = if fpExp x = 0 then (if fpFrac x = 0 then .zero else .subnormal) else .normal := by
    rw [fpClass, if_neg hexp]
  rw [hclass]
  split
  · split <;> decide
  · decide

theorem qTxp_of_finite {x : BitVec 64} (h : fpFinite x = true) :
    qTxp params x = some (clamp (roundHalfAway (units x)) 0 31).toNat := by
  obtain ⟨hnan, hinf⟩ := fpClass_of_finite h
  unfold qTxp
  split
  · next hc => exact absurd hc hnan
  · next hc => exact absurd hc hinf
  · rfl

theorem qTxp_eq_of_clamp {x : BitVec 64} {k : Nat} (h : fpFinite x = true)
    (hlevel : clamp (roundHalfAway (units x)) 0 31 = k) : qTxp params x = some k := by
  rw [qTxp_of_finite h, hlevel, Int.toNat_natCast]

/-- A level from 1 up is reached from half below it on. -/
theorem le_roundHalfAway_iff (x : BitVec 64) (n : Int) (hn : 1 ≤ n) :
    n ≤ roundHalfAway (units x) ↔ (n : ℚ) - 1 / 2 ≤ val x := by
  have hn' : (1 : ℚ) ≤ n := by exact_mod_cast hn
  rcases le_or_gt 0 (units x) with hx | hx
  · rw [roundHalfAway_of_nonneg hx, ← val, Int.le_floor, sub_le_iff_le_add]
  · have hval : val x < 0 := div_neg_of_neg_of_pos (by exact_mod_cast hx) one64_cast_pos
    have hround : 0 ≤ ⌊-val x + 1 / 2⌋ := Int.floor_nonneg.2 (by linarith)
    rw [roundHalfAway_of_neg hx, ← val]
    exact iff_of_false (by omega) (by linarith)

/-- Settles O49: rounding reaches a level from half below it on, and the clamp cuts at 0 and 31. -/
theorem transmitPowerIsRoundedThenClamped : Obligations.TransmitPowerIsRoundedThenClamped := by
  refine ⟨fun x hfin => ⟨fun hlow => ?_, fun k hk1 hk30 hlow hhigh => ?_, fun hhigh => ?_⟩, ?_⟩
  · have hround : ¬ 1 ≤ roundHalfAway (units x) := by
      rw [le_roundHalfAway_iff x 1 le_rfl, not_le, Int.cast_one]
      linarith
    exact qTxp_eq_of_clamp hfin (by unfold clamp; omega)
  · have hround : (k : Int) ≤ roundHalfAway (units x) := by
      rw [le_roundHalfAway_iff x k (by omega)]
      exact_mod_cast hlow
    have hnext : ¬ (k : Int) + 1 ≤ roundHalfAway (units x) := by
      rw [le_roundHalfAway_iff x _ (by omega), not_le]
      push_cast
      linarith
    exact qTxp_eq_of_clamp hfin (by unfold clamp; omega)
  · have hround : 31 ≤ roundHalfAway (units x) := by
      rw [le_roundHalfAway_iff x 31 (by decide), Int.cast_ofNat]
      linarith
    exact qTxp_eq_of_clamp hfin (by unfold clamp; omega)
  · decide +kernel

/-! ## `Q_CBR0` (R105) -/

theorem qCbr0_of_finite {x : BitVec 64} (h : fpFinite x = true) : qCbr0 params x = quantClamped .rne64 (units x) := by
  obtain ⟨hnan, hinf⟩ := fpClass_of_finite h
  unfold qCbr0
  split
  · next hc => exact absurd hc hnan
  · next hc => exact absurd hc hinf
  · rfl

theorem floorUnits_units (x : BitVec 64) : floorUnits (units x) = ⌊val x⌋ :=
  (Rat.floor_intCast_div_natCast _ _).symm

theorem mul255_of_finite {q : Int} (h : fpFinite (rne64 (q * 255) one64) = true) :
    mul255 .rne64 q = some (units (rne64 (q * 255) one64)) := if_pos h

theorem uN_byte_toNat {z : Int} (hlow : 0 ≤ z) (hhigh : z ≤ 255) : ((uN 8 z).toNat : Int) = z := by
  rw [uN, BitVec.toNat_ofInt]
  omega

/-- `clamp(val, 0, 1)` of R105 in units. -/
def clampedUnits (x : BitVec 64) : Int := clamp (units x) 0 one64

/-- The rounded product of R104 for a ratio in units. -/
def scaledRatio (c : Int) : ℚ := val (rne64 (c * 255) one64)

theorem clampedUnits_nonneg (x : BitVec 64) : 0 ≤ clampedUnits x := by unfold clampedUnits clamp; omega

theorem clampedUnits_le (x : BitVec 64) : clampedUnits x ≤ one64 := min_le_right _ _

theorem scaledRatio_finite {c : Int} (hc : 0 ≤ c) (hle : c ≤ one64) : fpFinite (rne64 (c * 255) one64) = true :=
  rne64_finite_of_le one64_pos (by omega) (by omega)

theorem scaledRatio_mono {c d : Int} (hc : 0 ≤ c) (hcd : c ≤ d) (hd : d ≤ one64) :
    scaledRatio c ≤ scaledRatio d :=
  val_rne64_mono one64_pos (by omega) (scaledRatio_finite hc (hcd.trans hd)) (scaledRatio_finite (hc.trans hcd) hd)

theorem scaledRatio_zero : scaledRatio 0 = 0 := by
  rw [scaledRatio, zero_mul, rne64_zero, val_zero]

theorem scaledRatio_one : scaledRatio one64 = 255 := by decide +kernel

/-- The clamped ratio scales into [0, 255]. -/
theorem scaledRatio_clamped_bounds (x : BitVec 64) :
    0 ≤ scaledRatio (clampedUnits x) ∧ scaledRatio (clampedUnits x) ≤ 255 :=
  ⟨scaledRatio_zero ▸ scaledRatio_mono le_rfl (clampedUnits_nonneg x) (clampedUnits_le x),
    scaledRatio_one ▸ scaledRatio_mono (clampedUnits_nonneg x) (clampedUnits_le x) le_rfl⟩

/-- `Q_CBR0` of a finite operand (R105). -/
theorem qCbr0_eq_floor {x : BitVec 64} (h : fpFinite x = true) :
    qCbr0 params x = some (uN 8 ⌊scaledRatio (clampedUnits x)⌋) := by
  have hprod := mul255_of_finite (scaledRatio_finite (clampedUnits_nonneg x) (clampedUnits_le x))
  have hclamp : clamp (units x) 0 one64 = clampedUnits x := rfl
  rw [qCbr0_of_finite h, quantClamped, hclamp, hprod, Option.map_some, floorUnits_units, scaledRatio]

theorem qCbr0_floor_toNat (x : BitVec 64) :
    ((uN 8 ⌊scaledRatio (clampedUnits x)⌋).toNat : Int) = ⌊scaledRatio (clampedUnits x)⌋ := by
  obtain ⟨hlow, hhigh⟩ := scaledRatio_clamped_bounds x
  refine uN_byte_toNat (Int.floor_nonneg.2 hlow) (Int.floor_le_iff.2 ?_)
  push_cast
  linarith

/-- 1 is the magnitude of exponent field 1023 and fraction 0. -/
theorem magnitudeUnits_one : magnitudeUnits (1023 * 2 ^ 52) = one64 := by decide +kernel

/-- `0x3FEFFFFFFFFFFFFF` is the greatest value below 1. -/
theorem units_le_of_lt_one (x : BitVec 64) (h : units x < one64) : units x ≤ units 0x3FEFFFFFFFFFFFFF#64 := by
  have hlast : units 0x3FEFFFFFFFFFFFFF#64 = magnitudeUnits (1023 * 2 ^ 52 - 1) := by decide +kernel
  have habs := units_eq x
  rw [hlast]
  split at habs
  · omega
  · rw [habs, ← magnitudeUnits_one, Nat.cast_lt, magnitudeUnits_strictMono.lt_iff_lt] at h
    rw [habs, Nat.cast_le]
    exact magnitudeUnits_strictMono.monotone (Nat.le_sub_one_of_lt h)

/-- Below 1 the scaled ratio stays below 255, by the order and its greatest operand. -/
theorem scaledRatio_lt_of_lt_one (x : BitVec 64) (h : units x < one64) : scaledRatio (clampedUnits x) < 255 := by
  have hlast : 0 ≤ units 0x3FEFFFFFFFFFFFFF#64 ∧ units 0x3FEFFFFFFFFFFFFF#64 ≤ one64 := by decide +kernel
  have hscaled : scaledRatio (units 0x3FEFFFFFFFFFFFFF#64) < 255 := by decide +kernel
  have hle := units_le_of_lt_one x h
  have hclamped : clampedUnits x ≤ units 0x3FEFFFFFFFFFFFFF#64 :=
    (min_le_left _ _).trans (max_le hle hlast.1)
  exact (scaledRatio_mono (clampedUnits_nonneg x) hclamped hlast.2).trans_lt hscaled

/-- Settles O43: scaling keeps the order, so the byte is 0 at the lower clamp, 255 at the upper one, and below 255 for
every operand below 1. -/
theorem hopZeroIsClampedThenFloored : Obligations.HopZeroIsClampedThenFloored := by
  refine ⟨fun x hfin => ⟨_, qCbr0_eq_floor hfin, qCbr0_floor_toNat x, fun hlow => ?_, fun hhigh => ?_,
    fun hlt hfull => ?_⟩, ?_⟩
  · have hunits : units x ≤ 0 := (val_nonpos_iff x).1 hlow
    have hclamped : clampedUnits x = 0 := by unfold clampedUnits clamp; omega
    rw [hclamped, scaledRatio_zero, Int.floor_zero]
    rfl
  · have hunits : (one64 : Int) ≤ units x := (one_le_val_iff x).1 hhigh
    have hclamped : clampedUnits x = one64 := by unfold clampedUnits clamp; omega
    rw [hclamped, scaledRatio_one, Int.floor_ofNat]
    rfl
  · have hunits : units x < one64 := not_le.1 fun hge => not_le.2 hlt ((one_le_val_iff x).2 hge)
    have hfloor : ⌊scaledRatio (clampedUnits x)⌋ < 255 :=
      Int.floor_lt.2 (by exact_mod_cast scaledRatio_lt_of_lt_one x hunits)
    rw [← qCbr0_floor_toNat, hfull] at hfloor
    exact absurd hfloor (by decide)
  · decide +kernel

/-! ## Operands that are not finite, and overflow (R103) -/

theorem qCbr1_of_finite {x : BitVec 64} (h : fpFinite x = true) : qCbr1 params x = quantWrapped params (units x) := by
  obtain ⟨hnan, hinf⟩ := fpClass_of_finite h
  unfold qCbr1
  split
  · next hpolicy => exact absurd hpolicy (by decide)
  · split
    · next hc => exact absurd hc hnan
    · next hc => exact absurd hc hinf
    · rfl

/-- The rounded product overflows where `RNE64` is infinite. -/
theorem mul255_eq_none_iff (q : Int) : mul255 .rne64 q = none ↔ fpFinite (rne64 (q * 255) one64) = false := by
  by_cases h : fpFinite (rne64 (q * 255) one64) = true
  · rw [mul255_of_finite h, h]
    exact iff_of_false (Option.some_ne_none _) (by decide)
  · exact iff_of_true (if_neg h) (Bool.eq_false_iff.2 h)

theorem quantWrapped_eq_none_iff (q : Int) :
    quantWrapped params q = none ↔ fpFinite (rne64 (q * 255) one64) = false := by
  rw [quantWrapped, Option.map_eq_none_iff]
  exact mul255_eq_none_iff q

theorem quantisers_nan {x : BitVec 64} (h : fpClass x = .nan) :
    qCbr0 params x = none ∧ qCbr1 params x = none ∧ qTxp params x = none := by
  refine ⟨by rw [qCbr0, h], ?_, by rw [qTxp, h]⟩
  rw [qCbr1, h]
  rfl

section Extension
variable (c : Command) (n : Nat)

/-- Byte 26 keeps its reserved bits zero whatever level is drawn. -/
theorem Command.extensionBytes_power_lt : ((c.extensionBytes params n)[2]).toNat < 32 := by
  cases hlive : c.extensionLive
  · rw [Command.extensionBytes_absent _ _ _ hlive]
    decide
  · rw [Command.extensionBytes_live _ _ _ hlive]
    exact (packTxp_toNat _).trans_lt (Nat.and_lt_two_pow _ (n := 5) (by decide))

theorem Command.extensionBytes_reserved : (c.extensionBytes params n)[3] = 0x00#8 := by
  cases hlive : c.extensionLive
  · rw [Command.extensionBytes_absent _ _ _ hlive]
    rfl
  · rw [Command.extensionBytes_live _ _ _ hlive]
    rfl

end Extension

/-- Settles O45: the class decides the quantisers on operands that are not finite, overflow is hop 1's alone since hop 0
clamps first, and the mask of byte 26 covers drawn levels too. -/
theorem nonFiniteOperandsStillComplete : Obligations.NonFiniteOperandsStillComplete := by
  refine ⟨fun x => quantisers_nan, rfl, rfl, rfl, rfl, rfl, rfl, fun x hfin => ⟨?_, ?_, ?_⟩, fun s hf => ?_⟩
  · rw [qCbr0_eq_floor hfin]
    exact Option.some_ne_none _
  · rw [qTxp_of_finite hfin]
    exact Option.some_ne_none _
  · rw [qCbr1_of_finite hfin, quantWrapped_eq_none_iff]
  · refine ⟨_, exec_encode_of_fits s hf, encodeAdmitted_faulted s, ?_, ?_⟩
    · rw [encodeAdmitted_byteAt_inside s 26 (by decide), Command.window_extension _ _ _ 2 (by decide)]
      exact Command.extensionBytes_power_lt _ _
    · rw [encodeAdmitted_byteAt_inside s 27 (by decide), Command.window_extension _ _ _ 3 (by decide)]
      exact Command.extensionBytes_reserved _ _

end Sys2Proof.Machine
end

section
/-! The encode operation (44_encode.md): bytes 24 to 27 of an admitted window, in each case of the two collaborators. -/

namespace Sys2Proof.Machine

theorem Command.extensionLive_iff (c : Command) :
    c.extensionLive = true ↔ c.met.present = true ∧ c.phy.present = true := Bool.and_eq_true_iff

/-- Bytes 24 to 27 after `ENCODE` are the extension (R62, R120). -/
theorem encodeAdmitted_byteAt_extension (s : State) (k : Nat) (hk : k < 4) :
    (encodeAdmitted s).byteAt (s.cmd.cur.toNat + (24 + k)) = (s.cmd.extensionBytes params s.draws)[k] :=
  (encodeAdmitted_byteAt_inside s (24 + k) (by omega)).trans (Command.window_extension _ _ _ k hk)

/-- Without both collaborators every byte of the extension is zero (R122). -/
theorem Command.extensionBytes_absent_byte (p : Config.Params) (c : Command) (n k : Nat) (hk : k < 4)
    (h : c.extensionLive = false) : (c.extensionBytes p n)[k] = 0x00#8 := by
  have hzero : c.extensionBytes p n = Vector.replicate 4 0x00#8 := Command.extensionBytes_absent p c n h
  rw [hzero, Vector.getElem_replicate]

/-- A byte below 32 has bits 7 to 5 zero. -/
theorem extractLsb'_high3_of_lt {b : Byte} (h : b.toNat < 32) : b.extractLsb' 5 3 = 0#3 := by
  apply BitVec.eq_of_toNat_eq
  rw [BitVec.extractLsb'_toNat, Nat.shiftRight_eq_div_pow, Nat.div_eq_of_lt h]
  rfl

/-- Settles O10: the extension is live exactly with both collaborators; live, a value that a quantiser gives is the one
drawn, and otherwise each byte is the zero block's. -/
theorem extensionIsLiveOnlyWithBothCollaborators : Obligations.ExtensionIsLiveOnlyWithBothCollaborators := by
  intro s hf
  have hext := encodeAdmitted_byteAt_extension s
  refine ⟨_, exec_encode_of_fits s hf, fun hboth => ?_, fun hnot k hk24 hk28 => ?_⟩
  · have hlive := s.cmd.extensionLive_iff.2 hboth
    simp only [Command.extensionBytes_live _ _ _ hlive] at hext
    refine ⟨fun q hq => (hext 0 (by decide)).trans ?_, fun q hq => (hext 1 (by decide)).trans ?_,
      fun l hl => (hext 2 (by decide)).trans ?_, hext 3 (by decide)⟩
    · simp [hq]
    · simp [hq]
    · simp [hl]
  · have habsent : s.cmd.extensionLive = false := Bool.eq_false_iff.2 (mt s.cmd.extensionLive_iff.1 hnot)
    obtain ⟨j, rfl⟩ := Nat.exists_eq_add_of_le hk24
    have hj : j < 4 := by omega
    exact (hext j hj).trans (Command.extensionBytes_absent_byte _ _ _ j hj habsent)

/-- Settles O11: byte 26 stays below 32 and byte 27 is zero whether the extension is live or not, drawn levels
included. -/
theorem reservedBitsAreZeroAfterEncode : Obligations.ReservedBitsAreZeroAfterEncode := by
  intro s hf
  have hpower := encodeAdmitted_byteAt_extension s 2 (by decide)
  have hreserved := encodeAdmitted_byteAt_extension s 3 (by decide)
  refine ⟨_, exec_encode_of_fits s hf, extractLsb'_high3_of_lt ?_, ?_⟩
  · exact hpower ▸ Command.extensionBytes_power_lt s.cmd s.draws
  · exact hreserved.trans (Command.extensionBytes_reserved s.cmd s.draws)

end Sys2Proof.Machine
end

section
/-! The decode operation (45_decode.md): every window has a response, and what the response is made of. -/

namespace Sys2Proof.Machine

/-! ## The 28 bytes alone (R131) -/

/-- Settles O16: the function is `decodeWindow`, and what `DECODE` hands to it is the window read byte by byte. -/
theorem decodeIsATotalFunctionOfTheWindow : Obligations.DecodeIsATotalFunctionOfTheWindow :=
  ⟨decodeWindow, fun s hf => ⟨_, exec_decode_of_fits s hf, decodeAdmitted_res s⟩⟩

/-! ## The ratios and the level (R134 to R136) -/

section Extension
variable (w : Vector Byte 28)

theorem decodeWindow_cbr0 : (decodeWindow w).cbr0 = dqCbr w[24] := rfl

theorem decodeWindow_cbr1 : (decodeWindow w).cbr1 = dqCbr w[25] := rfl

theorem decodeWindow_txPowerLevel : (decodeWindow w).txPowerLevel = unpackTxp w[26] := rfl

end Extension

/-- Settles O13: the three results are taken from bytes 24 to 26 whatever these hold, and a zero byte is `+0.0` and
level 0. -/
theorem extensionBytesAreAlwaysDecoded : Obligations.ExtensionBytesAreAlwaysDecoded := by
  intro s hf
  refine ⟨_, _, exec_decode_of_fits s hf, decodeAdmitted_res s, ?_⟩
  rw [decodeWindow_cbr0, decodeWindow_cbr1, decodeWindow_txPowerLevel, State.memRead_getElem, State.memRead_getElem,
    State.memRead_getElem]
  refine ⟨rfl, rfl, unpackTxp_toNat _, fun hzero => ?_⟩
  rw [hzero 24 (by decide) (by decide), hzero 25 (by decide) (by decide), hzero 26 (by decide) (by decide)]
  exact ⟨dqCbr_zero, dqCbr_zero, rfl⟩

/-! ## The reserved bits (R137) -/

/-- `UNPACK_TXP` keeps bits 4 to 0 (R81). -/
theorem unpackTxp_eq_extractLsb' (b : Byte) : unpackTxp b = b.extractLsb' 0 5 :=
  BitVec.setWidth_eq_extractLsb' (by decide)

/-- Byte 27 and bits 7 to 5 of byte 26 reach no result. -/
theorem decodeWindow_congr {v w : Vector Byte 28} (hbytes : ∀ k (hk : k < 26), v[k] = w[k])
    (hlevel : v[26].extractLsb' 0 5 = w[26].extractLsb' 0 5) : decodeWindow v = decodeWindow w := by
  rw [decodeWindow_eq, decodeWindow_eq, unpackTxp_eq_extractLsb', unpackTxp_eq_extractLsb', hlevel]
  simp only [hbytes, Nat.reduceLT]

/-- Settles O12: the two windows, read at the one cursor, agree on every bit that reaches a result. -/
theorem reservedBitsAreIgnoredByDecode : Obligations.ReservedBitsAreIgnoredByDecode := by
  intro s₁ s₂ hcmd hf₁ hf₂ hbytes hlevel
  have hdecoded : decodeWindow (s₁.memRead s₁.cmd.cur.toNat 28) = decodeWindow (s₂.memRead s₁.cmd.cur.toNat 28) :=
    decodeWindow_congr (fun k hk => by simpa using hbytes k hk) (by simpa using hlevel)
  refine ⟨_, _, _, exec_decode_of_fits s₁ hf₁, exec_decode_of_fits s₂ hf₂, decodeAdmitted_res s₁, ?_⟩
  rw [decodeAdmitted_res, decodeAdmitted_res, ← hcmd, hdecoded, State.curOut_congr hcmd]

/-! ## The speed (R132) -/

/-- The decoded speed as a number. -/
theorem decodeWindow_speed_toNat (w : Vector Byte 28) :
    (decodeWindow w).speed.toNat = (w[20].toNat * 256 + w[21].toNat) &&& 0x7FFF := by
  rw [decodeWindow_speed, BitVec.toNat_and, toNat_append_eq_add]
  rfl

/-- Unpacking gives back the packed speed; the accuracy bit above it is masked away (R83). -/
theorem packPaispd_and_low15 (acc : Bool) (spd15 : BitVec 15) :
    packPaispd acc spd15 &&& 0x7FFF#16 = spdUnscale spd15 := by
  rw [← spdUnscale_setWidth, packPaispd_eq_append, BitVec.setWidth_append_eq_right]

/-- Packing a speed and reading it back masks it with `0x7FFE`. -/
theorem spdUnscale_spdScale (v : BitVec 16) : spdUnscale (spdScale v) = v &&& 0x7FFE#16 := by
  apply BitVec.eq_of_toNat_eq
  rw [spdUnscale_toNat, spdScale_toNat, BitVec.toNat_and]
  exact (and_bits14to1 v.toNat).symm

/-- The speed that `DECODE` finds in the window `ENCODE` has just written. -/
theorem decodeWindow_encodeAdmitted_speed (s : State) :
    (decodeWindow ((encodeAdmitted s).memRead s.cmd.cur.toNat 28)).speed = s.cmd.hdr.speed &&& 0x7FFE#16 := by
  rw [decodeWindow_speed, State.memRead_getElem, State.memRead_getElem, encodeAdmitted_paispd, packPaispd_and_low15,
    spdUnscale_spdScale]

section MaskedSpeed
variable (v : BitVec 16)

theorem and_0x7FFE_toNat : (v &&& 0x7FFE#16).toNat = v.toNat / 2 % 2 ^ 14 * 2 :=
  (BitVec.toNat_and _ _).trans (and_bits14to1 v.toNat)

/-- The mask keeps a speed exactly if neither its sign bit nor its low bit is set. -/
theorem and_0x7FFE_eq_self_iff : v &&& 0x7FFE#16 = v ↔ v.toInt % 2 = 0 ∧ 0 ≤ v.toInt := by
  have hint := BitVec.toInt_eq_toNat_cond v
  rw [← BitVec.toNat_inj, and_0x7FFE_toNat]
  omega

/-- From -16384 up a negative speed has bit 14 set. -/
theorem le_and_0x7FFE_of_neg (hneg : v.toInt < 0) (hge : -16384 ≤ v.toInt) : 16384 ≤ (v &&& 0x7FFE#16).toNat := by
  have hint := BitVec.toInt_eq_toNat_cond v
  rw [and_0x7FFE_toNat]
  omega

/-- Below -16384 a speed has bit 14 clear. -/
theorem and_0x7FFE_lt_of_lt (hlt : v.toInt < -16384) : (v &&& 0x7FFE#16).toNat < 16384 := by
  have hint := BitVec.toInt_eq_toNat_cond v
  rw [and_0x7FFE_toNat]
  omega

end MaskedSpeed

/-- `ENCODE` keeps `cur` and `BUF_LEN`, so `DECODE` of its result meets the same admitted window (R33). -/
theorem encodeAdmitted_windowFits {s : State} (hf : s.windowFits) : (encodeAdmitted s).windowFits := hf

/-- Settles O36: the decoded speed is the raw field; after `ENCODE` that field is the speed under the mask of bits 14 to
1, and the sign and the range of the speed are read off bits 15 and 14 of its pattern. -/
theorem decodedSpeedIsTheRawField : Obligations.DecodedSpeedIsTheRawField := by
  constructor
  · intro s hf
    refine ⟨_, _, exec_decode_of_fits s hf, decodeAdmitted_res s, ?_⟩
    rw [decodeWindow_speed_toNat, State.memRead_getElem, State.memRead_getElem]
  · intro s hf
    have hfits := encodeAdmitted_windowFits hf
    have hspeed := decodeWindow_encodeAdmitted_speed s
    refine ⟨_, _, _, exec_encode_of_fits s hf, exec_decode_of_fits _ hfits, decodeAdmitted_res _, hspeed, ?_⟩
    rw [encodeAdmitted_cmd, hspeed]
    exact ⟨and_0x7FFE_eq_self_iff _, le_and_0x7FFE_of_neg _, and_0x7FFE_lt_of_lt _⟩

end Sys2Proof.Machine
end

section
/-! The exception `BufferBounds` (60_exceptions.md): which commands raise it, what they do otherwise, and that no step
takes the mark back. -/

namespace Sys2Proof.Machine

@[simp] theorem decodeAdmitted_faulted (s : State) : (decodeAdmitted s).faulted = s.faulted := rfl

@[simp] theorem decodeAdmitted_faultRec (s : State) : (decodeAdmitted s).faultRec = s.faultRec := rfl

/-- The condition of `BufferBounds` (R141) is the negation of window admission (R33). -/
theorem State.not_windowFits_iff (s : State) : ¬ s.windowFits ↔ s.bufLen.toNat < s.cmd.cur.toNat + 28 :=
  s.windowFits_iff.not.trans not_le

/-! ## The mark and the record after one instruction (R141, R146) -/

/-- Everything `exec` can do to the mark and the record: leave both, or take `BufferBounds`. -/
theorem exec_next_fault_cases {i : Instr} {s t : State} (h : exec i s = .next t) :
    ((i = .size ∨ s.windowFits) ∧ t.faulted = s.faulted ∧ t.faultRec = s.faultRec)
    ∨ (i = .encode ∧ ¬ s.windowFits ∧ t = s.raiseBufferBounds .encode)
    ∨ (i = .decode ∧ ¬ s.windowFits ∧ t = s.raiseBufferBounds .decode) := by
  obtain ⟨hi, rfl⟩ | ⟨-, hf, rfl⟩ | hshort | ⟨-, hf, rfl⟩ | hshort := exec_next_cases h
  · exact .inl ⟨.inl hi, State.respond_faulted s _, State.respond_faultRec s _⟩
  · exact .inl ⟨.inr hf, encodeAdmitted_faulted s, encodeAdmitted_faultRec s⟩
  · exact .inr (.inl hshort)
  · exact .inl ⟨.inr hf, decodeAdmitted_faulted s, decodeAdmitted_faultRec s⟩
  · exact .inr (.inr hshort)

/-- `BufferBounds` has no other cause than the window check of `ENCODE` and `DECODE` (R141, R146). -/
theorem exec_faulted_iff {i : Instr} {s t : State} (h : exec i s = .next t) :
    t.faulted = true ↔ s.faulted = true ∨ ((i = .encode ∨ i = .decode) ∧ ¬ s.windowFits) := by
  obtain ⟨hquiet, hmark, -⟩ | ⟨hi, hf, rfl⟩ | ⟨hi, hf, rfl⟩ := exec_next_fault_cases h
  · have hnone : ¬ ((i = .encode ∨ i = .decode) ∧ ¬ s.windowFits) := by
      rintro ⟨hi, hf⟩
      obtain rfl := hquiet.resolve_right hf
      simp at hi
    rw [hmark, or_iff_left hnone]
  · exact iff_of_true (State.raiseBufferBounds_faulted s _) (.inr ⟨.inl hi, hf⟩)
  · exact iff_of_true (State.raiseBufferBounds_faulted s _) (.inr ⟨.inr hi, hf⟩)

/-- A command that raises nothing leaves the record as it was (log 11). -/
theorem exec_faultRec_of_quiet {i : Instr} {s t : State} (h : exec i s = .next t) (hquiet : i = .size ∨ s.windowFits) :
    t.faultRec = s.faultRec := by
  obtain ⟨-, -, hrec⟩ | ⟨rfl, hf, -⟩ | ⟨rfl, hf, -⟩ := exec_next_fault_cases h
  · exact hrec
  · exact absurd hquiet (by simp [hf])
  · exact absurd hquiet (by simp [hf])

/-! ## The mark along the steps (R146) -/

/-- R146 for one instruction. -/
theorem exec_keeps_faulted {i : Instr} {s t : State} (h : exec i s = .next t) (hs : s.faulted = true) :
    t.faulted = true := (exec_faulted_iff h).2 (.inl hs)

/-- No step clears the mark: waiting and a host write do not touch it, and neither does accepting a command. -/
theorem step_keeps_faulted {s t : State} (h : step s = .next t) (hs : s.faulted = true) : t.faulted = true := by
  obtain ⟨-, rfl⟩ | ⟨a, b, rest, -, -, rfl⟩ | ⟨code, c, hdr, met, phy, rest, i, -, -, hexec⟩ := step_next_cases h
  · exact hs
  · exact (State.memWrite_faulted _ _ _).trans hs
  · exact exec_keeps_faulted hexec ((State.accept_faulted _ _ _ _ _ _).trans hs)

/-- Settles O20: reset by evaluation, the setting clause by the short branches of the two operations, and the last by
the inversion of `step`. -/
theorem faultMarkIsNeverCleared : Obligations.FaultMarkIsNeverCleared := by
  refine ⟨rfl, fun s hf => ⟨?_, ?_⟩, fun _ _ => step_keeps_faulted⟩
  · exact ⟨_, exec_encode_of_short s hf, State.raiseBufferBounds_faulted s _⟩
  · exact ⟨_, exec_decode_of_short s hf, State.raiseBufferBounds_faulted s _⟩

/-! ## Which commands raise it, and what they do otherwise (R141, R145) -/

/-- Settles O19: the mark changes by the window check alone, and what is recorded is read off the short branch of the
operation. -/
theorem onlyAShortBufferFaults : Obligations.OnlyAShortBufferFaults := by
  refine ⟨rfl, fun i s t h => ?_⟩
  rw [← s.not_windowFits_iff]
  refine ⟨exec_faulted_iff h, ?_, ?_, exec_faultRec_of_quiet h⟩
  · rintro - rfl hf
    obtain rfl := Host.Outcome.next.inj ((exec_encode_of_short s hf).symm.trans h)
    exact State.raiseBufferBounds_faultRec s _
  · rintro - rfl hf
    obtain rfl := Host.Outcome.next.inj ((exec_decode_of_short s hf).symm.trans h)
    exact State.raiseBufferBounds_faultRec s _

/-- `ENCODE` and `DECODE` take `BufferBounds` on the one condition (R141, R145). -/
theorem exec_of_short {i : Instr} {s : State} (hf : ¬ s.windowFits) (hi : i = .encode ∨ i = .decode) :
    ∃ op, exec i s = .next (s.raiseBufferBounds op) := by
  obtain rfl | rfl := hi
  · exact ⟨.encode, exec_encode_of_short s hf⟩
  · exact ⟨.decode, exec_decode_of_short s hf⟩

/-- Settles O18: both operations take `BufferBounds`, and what it writes and leaves is read off field by field. -/
theorem bufferBoundsDoesNothingButMark : Obligations.BufferBoundsDoesNothingButMark := by
  intro s i hf hi
  obtain ⟨op, h⟩ := exec_of_short hf hi
  exact ⟨_, h, by simp⟩

end Sys2Proof.Machine
end

section
/-! The converter and the packer there and back (41_packer_byteorder.md section 3): each GET undoes its PUT and each PUT
its GET. -/

namespace Sys2Proof.Machine

/-! ## The converter -/

/-- A part of a word and the byte below it are one part. -/
theorem extractLsb'_append_byte_below {w : Nat} (v : BitVec w) (start len : Nat) :
    v.extractLsb' (start + 8) len ++ v.extractLsb' start 8 = v.extractLsb' start (len + 8) :=
  BitVec.extractLsb'_append_extractLsb'_eq_extractLsb' rfl

theorem getBe32_putBe32 (v : BitVec 32) : getBe32 (putBe32 v) = v :=
  calc getBe32 (putBe32 v)
      = v.extractLsb' 24 8 ++ v.extractLsb' 16 8 ++ v.extractLsb' 8 8 ++ v.extractLsb' 0 8 := rfl
    _ = v.extractLsb' 0 32 := by iterate 3 rw [extractLsb'_append_byte_below]
    _ = v := BitVec.extractLsb'_eq_self

theorem getBytes8_putBytes8 (a : BitVec 64) : getBytes8 (putBytes8 a) = a :=
  calc getBytes8 (putBytes8 a)
      = a.extractLsb' 56 8 ++ a.extractLsb' 48 8 ++ a.extractLsb' 40 8 ++ a.extractLsb' 32 8
          ++ a.extractLsb' 24 8 ++ a.extractLsb' 16 8 ++ a.extractLsb' 8 8 ++ a.extractLsb' 0 8 := rfl
    _ = a.extractLsb' 0 64 := by iterate 7 rw [extractLsb'_append_byte_below]
    _ = a := BitVec.extractLsb'_eq_self

theorem putBe16_byte (v : BitVec 16) (k : Nat) (hk : k < 2) : (putBe16 v)[k] = v.extractLsb' (8 - 8 * k) 8 := by
  interval_cases k <;> rfl

theorem putBe32_byte (v : BitVec 32) (k : Nat) (hk : k < 4) : (putBe32 v)[k] = v.extractLsb' (24 - 8 * k) 8 := by
  interval_cases k <;> rfl

theorem putBe16_getBe16 (bs : Vector Byte 2) : putBe16 (getBe16 bs) = bs :=
  Vector.ext fun k hk => (putBe16_byte _ k hk).trans (getBe16_byte bs k hk)

theorem putBe32_getBe32 (bs : Vector Byte 4) : putBe32 (getBe32 bs) = bs :=
  Vector.ext fun k hk => (putBe32_byte _ k hk).trans (getBe32_byte bs k hk)

theorem putBytes8_getBytes8 (bs : Vector Byte 8) : putBytes8 (getBytes8 bs) = bs :=
  Vector.ext fun k hk => (putBytes8_byte _ k hk).trans (getBytes8_byte bs k hk)

/-- Settles O52: the adjoining bytes of a word concatenate to the word, and a byte put is the byte that was got. -/
theorem converterRoundTrips : Obligations.ConverterRoundTrips :=
  ⟨getBe16_putBe16, putBe16_getBe16, getBe32_putBe32, putBe32_getBe32, getBytes8_putBytes8, putBytes8_getBytes8⟩

/-! ## The packer -/

theorem unpackPaispd_packPaispd (acc : Bool) (spd15 : BitVec 15) :
    unpackPaispd (packPaispd acc spd15) = (acc, spd15) := by
  have hacc : (BitVec.ofBool acc ++ spd15).getLsbD 15 = acc := by
    rw [BitVec.getLsbD_append]
    simp
  rw [packPaispd_eq_append, unpackPaispd, hacc, BitVec.setWidth_append_eq_right]

theorem packPaispd_unpackPaispd (p : BitVec 16) : packPaispd (unpackPaispd p).1 (unpackPaispd p).2 = p := by
  apply BitVec.eq_of_toNat_eq
  have hlow : p.toNat &&& 0x7FFF = p.toNat % 2 ^ 15 := Nat.and_two_pow_sub_one_eq_mod p.toNat 15
  rw [packPaispd_toNat, unpackPaispd_accuracy_toNat, unpackPaispd_speed_toNat, hlow, Nat.shiftRight_eq_div_pow]
  exact Nat.div_add_mod' _ _

theorem unpackTxp_packTxp_toNat (lvl : Nat) (h : lvl ≤ 31) : (unpackTxp (packTxp lvl)).toNat = lvl := by
  rw [unpackTxp_toNat, packTxp_toNat_of_le lvl h, ← packTxp_toNat, packTxp_toNat_of_le lvl h]

theorem packTxp_unpackTxp (b : Byte) : packTxp (unpackTxp b).toNat = b &&& 0x1F#8 := by
  apply BitVec.eq_of_toNat_eq
  rw [packTxp_toNat, unpackTxp_toNat, Nat.and_assoc, Nat.and_self, BitVec.toNat_and]
  rfl

/-- Settles O54: the packed word is a concatenation of its two fields, and masking a power level twice is masking it
once. -/
theorem packerRoundTrips : Obligations.PackerRoundTrips :=
  ⟨unpackPaispd_packPaispd, packPaispd_unpackPaispd, unpackTxp_packTxp_toNat, packTxp_unpackTxp⟩

end Sys2Proof.Machine
end

section
/-! The decoder and the encoder (30_encoding.md sections 1 and 3): each undoes the other, on command codes and on wire
forms, and bytes that are neither are refused by name. -/

namespace Sys2Proof

open Sys2Proof.Machine

/-! ## The decoder by the length of what it reads (log 5) -/

/-- 28 bytes are read as a wire form, whatever they hold. -/
theorem decodeBytes_toList (w : Vector Byte 28) : decodeBytes w.toList = .ok (.shbWire (WireForm.ofWindow w)) := by
  have hlen : w.toList.length = 28 := Vector.length_toList
  unfold decodeBytes
  split
  · next b heq => simp [heq] at hlen
  · exact dif_pos hlen

theorem decodeBytes_of_length_ne {bs : List Byte} (h1 : bs.length ≠ 1) (h28 : bs.length ≠ 28) :
    decodeBytes bs = .error (.length bs.length) := by
  unfold decodeBytes
  split
  · exact absurd rfl h1
  · exact dif_neg h28

/-! ## Wire forms (R50) -/

theorem WireForm.toBytes_length (w : WireForm) : w.toBytes.length = 28 := rfl

/-- Every field is got back from the bytes it was put in. -/
theorem WireForm.ofWindow_toBytes (w : WireForm) : WireForm.ofWindow ⟨w.toBytes.toArray, w.toBytes_length⟩ = w := by
  have hbytes : WireForm.ofWindow ⟨w.toBytes.toArray, w.toBytes_length⟩
      = { address := getBytes8 (putBytes8 w.address)
          timestamp := getBe32 (putBe32 w.timestamp)
          latitude := getBe32 (putBe32 w.latitude)
          longitude := getBe32 (putBe32 w.longitude)
          accuracy := (unpackPaispd (getBe16 (putBe16 (packPaispd w.accuracy w.speed)))).1
          speed := (unpackPaispd (getBe16 (putBe16 (packPaispd w.accuracy w.speed)))).2
          heading := getBe16 (putBe16 w.heading)
          cbr0 := w.cbr0
          cbr1 := w.cbr1
          reservedHigh := (w.reservedHigh ++ w.power).extractLsb' 5 3
          power := unpackTxp (w.reservedHigh ++ w.power)
          reservedByte := w.reservedByte } := rfl
  have hhigh : (w.reservedHigh ++ w.power).extractLsb' 5 3 = w.reservedHigh := BitVec.extractLsb'_append_eq_left
  have hpower : unpackTxp (w.reservedHigh ++ w.power) = w.power := BitVec.setWidth_append_eq_right
  rw [hbytes, hhigh, hpower, getBytes8_putBytes8, getBe32_putBe32, getBe32_putBe32, getBe32_putBe32, getBe16_putBe16,
    getBe16_putBe16, unpackPaispd_packPaispd]

/-- Byte 26 is its reserved bits above its power level. -/
theorem reservedHigh_append_power (b : Byte) : b.extractLsb' 5 3 ++ unpackTxp b = b := by
  rw [unpackTxp_eq_extractLsb']
  exact BitVec.extractLsb'_append_extractLsb' (w := 3) (len := 5)

/-- Every byte is put back from the field it went into. -/
theorem WireForm.toBytes_ofWindow (w : Vector Byte 28) : (WireForm.ofWindow w).toBytes = w.toList := by
  unfold WireForm.toBytes WireForm.ofWindow
  rw [putBytes8_getBytes8, putBe32_getBe32, putBe32_getBe32, putBe32_getBe32, packPaispd_unpackPaispd,
    putBe16_getBe16, putBe16_getBe16, reservedHigh_append_power]
  refine List.ext_getElem Vector.length_toList.symm fun k hk _ => ?_
  have hk' : k < 28 := hk
  rw [Vector.getElem_toList]
  interval_cases k <;> rfl

/-! ## Command codes (R63, R65) -/

theorem encode_decodeOp (op : BitVec 2) : encode (decodeOp op) = encodeOp op := by
  revert op
  decide

/-- A byte whose bits 7 to 2 are zero is the padded form of its code. -/
theorem encodeOp_extractLsb' {b : Byte} (h : b.extractLsb' 2 6 = 0#6) : encodeOp (b.extractLsb' 0 2) = [b] := by
  have hb : b.extractLsb' 2 6 ++ b.extractLsb' 0 2 = b := BitVec.extractLsb'_append_extractLsb' (w := 6) (len := 2)
  have hpad : (b.extractLsb' 0 2).setWidth 8 = 0#6 ++ b.extractLsb' 0 2 := BitVec.setWidth_eq_append (by decide)
  rw [encodeOp, hpad, ← h, hb]

theorem encode_of_decodeCommandByte {b : Byte} {i : Instr} (h : decodeCommandByte b = .ok i) : encode i = [b] := by
  unfold decodeCommandByte at h
  split at h
  · next hpad =>
    obtain rfl := Except.ok.inj h
    rw [encode_decodeOp, encodeOp_extractLsb' hpad]
  · cases h

theorem decodeCommandByte_of_le {b : Byte} (h : 4 ≤ b.toNat) : decodeCommandByte b = .error (.padding b) := by
  refine if_neg fun hpad => ?_
  have hzero : b.toNat / 2 ^ 2 % 2 ^ 6 = 0 := by
    have := congrArg BitVec.toNat hpad
    rwa [BitVec.extractLsb'_toNat, Nat.shiftRight_eq_div_pow] at this
  omega

/-! ## The two directions -/

/-- Settles O3: a command code by R63's table, a wire form because every field is got back from its own bytes. -/
theorem everyInstructionDecodesFromItsEncoding : Obligations.EveryInstructionDecodesFromItsEncoding := by
  intro i
  cases i with
  | size => exact decodeBytes_encodeOp 0b00#2
  | encode => exact decodeBytes_encodeOp 0b01#2
  | decode => exact decodeBytes_encodeOp 0b10#2
  | reservedOp3 => exact decodeBytes_encodeOp 0b11#2
  | shbWire w =>
    have h := decodeBytes_toList ⟨w.toBytes.toArray, w.toBytes_length⟩
    rwa [w.ofWindow_toBytes] at h

/-- Settles O4: by the length of the bytes; one byte is its padded code, and 28 are put back field by field. -/
theorem decoderReadsOnlyEncodings : Obligations.DecoderReadsOnlyEncodings := by
  intro bs i h
  by_cases h1 : bs.length = 1
  · obtain ⟨b, rfl⟩ := List.length_eq_one_iff.1 h1
    exact encode_of_decodeCommandByte h
  by_cases h28 : bs.length = 28
  · obtain ⟨w, rfl⟩ : ∃ w : Vector Byte 28, w.toList = bs := ⟨⟨bs.toArray, h28⟩, rfl⟩
    rw [decodeBytes_toList] at h
    obtain rfl := Except.ok.inj h
    exact WireForm.toBytes_ofWindow w
  · rw [decodeBytes_of_length_ne h1 h28] at h
    cases h

/-- Settles O5: neither length of the layout, and a byte from 4 up has one of bits 7 to 2 set. -/
theorem bytesThatAreNoCodeAreRefusedByName : Obligations.BytesThatAreNoCodeAreRefusedByName :=
  ⟨fun _ => decodeBytes_of_length_ne, fun _ => decodeCommandByte_of_le⟩

/-- Settles O2: the decoder reads the 28 bytes, given as they stand, as the example's values. -/
theorem docScenarioWindowIsReadFieldByField : Obligations.DocScenarioWindowIsReadFieldByField := rfl

end Sys2Proof
end

section
/-! The step and the buffer (10_state.md, 20_memory.md): what each move of the host does, who changes a byte, and the
invariant that every step keeps. -/

namespace Sys2Proof.Machine

/-! ## One move (R16, R31, R67; log 8) -/

/-- A table word that is read as `i` is read so from its bytes. -/
theorem decodeBytes_of_decodeTableWord {nbits w : Nat} {i : Instr} (h : decodeTableWord nbits w = some i) :
    decodeBytes (tableBytes nbits w) = .ok i := by
  unfold decodeTableWord at h
  cases hd : decodeBytes (tableBytes nbits w) with
  | ok j =>
    rw [hd] at h
    exact congrArg Except.ok (Option.some.inj h)
  | error e =>
    rw [hd] at h
    cases h

/-- Settles O26: an empty script is the waiting case of `step`. -/
theorem waitingChangesNothing : Obligations.WaitingChangesNothing := by
  intro s hs
  rw [step, hostStep, hs]

section Issue
variable {s : State} {code : List Byte} {c : CurSource} {hdr : Hdr} {met : Met} {phy : Phy} {rest : List HostMove}
  (hs : s.script = .issue code c hdr met phy :: rest)
include hs

/-- An issued command is run on the state that has accepted it. -/
theorem step_of_issue :
    step s = runCode exec code (State.accept { s with script := rest } code c hdr met phy) := by
  rw [step, hostStep, hs]

theorem step_of_issue_ok {i : Instr} (hd : decodeBytes code = .ok i) :
    step s = exec i (State.accept { s with script := rest } code c hdr met phy) := by
  rw [step_of_issue hs, runCode, hd]

theorem step_of_issue_error {e : CodeError} (hd : decodeBytes code = .error e) :
    step s = .refused (.noCommandCode e) := by
  rw [step_of_issue hs, runCode, hd]

end Issue

/-- Settles O24: the accepted operands are the move's, with `cur` from the one source or the other. -/
theorem stepRunsTheDecodedCommand : Obligations.StepRunsTheDecodedCommand :=
  fun _ _ _ _ _ _ _ hd => ⟨fun _ hs => step_of_issue_ok hs hd, fun hs => step_of_issue_ok hs hd⟩

/-- Settles O25: the decoder's error is the refusal's reason. -/
theorem stepRefusesWhatIsNoCode : Obligations.StepRefusesWhatIsNoCode :=
  fun _ _ _ _ _ _ _ _ hs hd => step_of_issue_error hs hd

/-- Settles O28: the word's bytes are the next move's code, and its operands are those already on the port. -/
theorem fetchWordIsTheNextCommand : Obligations.FetchWordIsTheNextCommand :=
  fun s _ _ _ h => step_of_issue_ok (s.withCode_script _) (decodeBytes_of_decodeTableWord h)

section Write
variable {s : State} {a : BitVec 32} {b : Byte} {rest : List HostMove} (hs : s.script = .write a b :: rest)
include hs

theorem step_of_write : step s = hostWrite a b { s with script := rest } := by
  rw [step, hostStep, hs]

theorem step_of_write_inside (ha : a.toNat < s.bufLen.toNat) :
    step s = .next (State.memWrite { s with script := rest } a.toNat [b]) :=
  (step_of_write hs).trans (if_pos ha)

theorem step_of_write_outside (ha : s.bufLen.toNat ≤ a.toNat) : step s = .fault (.hostBounds a) :=
  (step_of_write hs).trans (if_neg (not_lt.2 ha))

end Write

/-- `MemWrite` of a single byte (R31, R32). -/
theorem State.byteAt_memWrite_singleton (s : State) (a x : Nat) (b : Byte) :
    (s.memWrite a [b]).byteAt x = if x = a then b else s.byteAt x := Mem.read_write s.buf a x b

/-- Settles O27: the write's bound decides, and inside it the read after the write is the byte at its own address
only. -/
theorem hostWriteStoresExactlyOneByte : Obligations.HostWriteStoresExactlyOneByte := by
  refine fun s a b rest hs => ⟨fun ha => ⟨_, step_of_write_inside hs ha, ?_, fun x hx => ?_, rfl⟩,
    step_of_write_outside hs⟩
  · rw [State.byteAt_memWrite_singleton, if_pos rfl]
  · rw [State.byteAt_memWrite_singleton, if_neg hx]
    rfl

/-! ## Who changes a byte (R31, R40) -/

@[simp] theorem decodeAdmitted_buf (s : State) : (decodeAdmitted s).buf = s.buf := rfl
@[simp] theorem decodeAdmitted_bufLen (s : State) : (decodeAdmitted s).bufLen = s.bufLen := rfl

/-- No instruction changes the length of the buffer. -/
theorem exec_bufLen {i : Instr} {s t : State} (h : exec i s = .next t) : t.bufLen = s.bufLen := by
  obtain ⟨-, rfl⟩ | ⟨-, -, rfl⟩ | ⟨-, -, rfl⟩ | ⟨-, -, rfl⟩ | ⟨-, -, rfl⟩ := exec_next_cases h
  · exact State.respond_bufLen s _
  · exact encodeAdmitted_bufLen s
  · exact State.raiseBufferBounds_bufLen s _
  · exact decodeAdmitted_bufLen s
  · exact State.raiseBufferBounds_bufLen s _

/-- An instruction that changes the buffer is `ENCODE` with an admitted window. -/
theorem exec_buf_cases {i : Instr} {s t : State} (h : exec i s = .next t) :
    t.buf = s.buf ∨ (i = .encode ∧ s.windowFits ∧ t = encodeAdmitted s) := by
  obtain ⟨-, rfl⟩ | hencode | ⟨-, -, rfl⟩ | ⟨-, -, rfl⟩ | ⟨-, -, rfl⟩ := exec_next_cases h
  · exact .inl (State.respond_buf s _)
  · exact .inr hencode
  · exact .inl (State.raiseBufferBounds_buf s _)
  · exact .inl (decodeAdmitted_buf s)
  · exact .inl (State.raiseBufferBounds_buf s _)

/-- A byte that an instruction changes lies in the admitted window of `ENCODE`. -/
theorem exec_byteAt_ne {i : Instr} {s t : State} {x : Nat} (h : exec i s = .next t) (hx : t.byteAt x ≠ s.byteAt x) :
    i = .encode ∧ t.cmd = s.cmd ∧ s.windowFits ∧ s.cmd.cur.toNat ≤ x ∧ x < s.cmd.cur.toNat + 28 := by
  obtain hbuf | ⟨rfl, hf, rfl⟩ := exec_buf_cases h
  · exact absurd (congrArg (Mem.read · x) hbuf) hx
  · refine ⟨rfl, encodeAdmitted_cmd s, hf, ?_⟩
    by_contra hout
    exact hx (encodeAdmitted_byteAt_outside s x (by omega))

/-- Settles O29: waiting writes nothing, a host write its own address, and a command by the cases of `exec`. -/
theorem onlyEncodeAndTheHostWriteTheBuffer : Obligations.OnlyEncodeAndTheHostWriteTheBuffer := by
  intro s t h
  obtain ⟨-, rfl⟩ | ⟨a, b, rest, hs, -, rfl⟩ | ⟨code, c, hdr, met, phy, rest, i, hs, hd, hexec⟩ := step_next_cases h
  · exact ⟨rfl, fun x hx => absurd rfl hx⟩
  · refine ⟨rfl, fun x hx => .inl ⟨a, b, rest, hs, ?_⟩⟩
    by_contra hne
    rw [State.byteAt_memWrite_singleton, if_neg (Ne.symm hne)] at hx
    exact hx rfl
  · refine ⟨(exec_bufLen hexec).trans (State.accept_bufLen _ _ _ _ _ _), fun x hx => .inr ?_⟩
    obtain ⟨rfl, hcmd, hf, hlow, hhigh⟩ := exec_byteAt_ne hexec hx
    rw [hcmd]
    exact ⟨code, c, hdr, met, phy, rest, hs, hd, hlow, hhigh, hf⟩

/-! ## The invariant -/

/-- `MemWrite` inside the buffer keeps its canonical form and its bounds. -/
theorem State.memWrite_bufferWf {s : State} {a : Nat} {bs : List Byte} (h : s.bufferWf)
    (ha : a + bs.length ≤ s.bufLen.toNat) : (s.memWrite a bs).bufferWf := by
  obtain ⟨hwf, hbounds⟩ := h
  refine ⟨Mem.wf_writeBytes bs s.buf a hwf, fun c hc => ?_⟩
  rw [State.memWrite_bufLen]
  obtain ⟨-, hhigh⟩ | hold := Mem.mem_writeBytes bs s.buf a c hc
  · exact hhigh.trans_le ha
  · exact hbounds c hold

/-- `ENCODE` writes inside its admitted window only (R33). -/
theorem encodeAdmitted_bufferWf {s : State} (h : s.bufferWf) (hf : s.windowFits) : (encodeAdmitted s).bufferWf :=
  State.memWrite_bufferWf h (by rw [Vector.length_toList]; exact hf)

theorem exec_keeps_bufferWf {i : Instr} {s t : State} (hexec : exec i s = .next t) (h : s.bufferWf) : t.bufferWf := by
  obtain hbuf | ⟨-, hf, rfl⟩ := exec_buf_cases hexec
  · rwa [State.bufferWf, hbuf, exec_bufLen hexec]
  · exact encodeAdmitted_bufferWf h hf

/-- `BufferBounds` sets the mark and the record together; nothing else touches either (R141, R146). -/
theorem exec_keeps_faultWf {i : Instr} {s t : State} (hexec : exec i s = .next t) (h : s.faultWf) : t.faultWf := by
  obtain ⟨-, hmark, hrec⟩ | ⟨-, -, rfl⟩ | ⟨-, -, rfl⟩ := exec_next_fault_cases hexec
  · rwa [State.faultWf, hmark, hrec]
  · rfl
  · rfl

/-- Settles O23: a host write and an admitted `ENCODE` write inside the buffer, and the fault's two fields move
together. -/
theorem stepKeepsTheInvariant : Obligations.StepKeepsTheInvariant := by
  rintro s t ⟨hbuffer, hfault⟩ h
  obtain ⟨-, rfl⟩ | ⟨a, b, rest, -, ha, rfl⟩ | ⟨code, c, hdr, met, phy, rest, i, -, -, hexec⟩ := step_next_cases h
  · exact ⟨hbuffer, hfault⟩
  · exact ⟨State.memWrite_bufferWf (s := { s with script := rest }) hbuffer ha, hfault⟩
  · exact ⟨exec_keeps_bufferWf hexec hbuffer, exec_keeps_faultWf hexec hfault⟩

/-- Settles O22: the buffer lists no byte, and neither mark nor record is set. -/
theorem resetHoldsTheInvariant : Obligations.ResetHoldsTheInvariant := by
  unfold Obligations.ResetHoldsTheInvariant
  decide

end Sys2Proof.Machine
end

section
/-! The three operations as a whole (40_size_query.md, 44_encode.md, 45_decode.md, 60_exceptions.md,
70_reset_and_hazards.md): their counts, their frames, their independence of the mark, and that `ENCODE` may be repeated. -/

namespace Sys2Proof.Machine

/-- The wire format presented as a command is refused in every state (log 6). -/
theorem exec_shbWire (w : WireForm) (s : State) : exec (.shbWire w) s = .refused .wireFormIsNoCommand := rfl

/-- Settles O31: the arm of the wire format is the refusal. -/
theorem wireFormatIsNoCommand : Obligations.WireFormatIsNoCommand := exec_shbWire

@[simp] theorem decodeAdmitted_cursor (s : State) : (decodeAdmitted s).cursor = s.curOut := rfl

/-- Settles O7: each of the three answers 28, which is also what `cur_out` adds to `cur`. -/
theorem sizeIsTheCountEncodeAndDecodeMove : Obligations.SizeIsTheCountEncodeAndDecodeMove := fun s hf =>
  ⟨28#32, ⟨_, exec_size s, State.respond_res s _⟩,
    ⟨_, exec_encode_of_fits s hf, encodeAdmitted_res s, encodeAdmitted_cursor s⟩,
    ⟨_, _, exec_decode_of_fits s hf, decodeAdmitted_res s, decodeAdmitted_cursor s⟩⟩

/-- Settles O14: bytes outside the window by the frame of `MemWrite`, the fields one by one. -/
theorem encodeChangesOnlyItsWindow : Obligations.EncodeChangesOnlyItsWindow := fun s hf =>
  ⟨_, exec_encode_of_fits s hf, encodeAdmitted_byteAt_outside s, encodeAdmitted_bufLen s, encodeAdmitted_cmd s,
    encodeAdmitted_script s, encodeAdmitted_faulted s, encodeAdmitted_faultRec s, encodeAdmitted_res s,
    encodeAdmitted_cursor s⟩

/-- Settles O17: `DECODE` is its response and the advance of the cursor. -/
theorem decodeChangesOnlyTheResponse : Obligations.DecodeChangesOnlyTheResponse := fun s hf =>
  ⟨_, _, exec_decode_of_fits s hf, rfl, decodeAdmitted_byteAt s⟩

/-- Settles O35: at reset the window is bytes 0 to 27 of the model's buffer, and it fits. -/
theorem resetIsIdle : Obligations.ResetIsIdle := by
  have hf : State.reset.windowFits := by decide
  exact ⟨rfl, rfl, waitingChangesNothing _ rfl, ⟨_, exec_size _, State.respond_res _ _⟩,
    ⟨_, exec_encode_of_fits _ hf, encodeAdmitted_res _⟩, ⟨_, _, exec_decode_of_fits _ hf, decodeAdmitted_res _⟩⟩

/-! ## The mark (R13, R147) -/

/-- The state with another mark and another record of the last fault. -/
def State.withMark (s : State) (b : Bool) (r : Option FaultRecord) : State := { s with faulted := b, faultRec := r }

/-- Every arm of `exec` that completes does so whatever the mark and the record are, and otherwise does the same. -/
theorem exec_withMark {i : Instr} {s t : State} (h : exec i s = .next t) (b : Bool) (r : Option FaultRecord) :
    ∃ b' r', exec i (s.withMark b r) = .next (t.withMark b' r') := by
  obtain ⟨rfl, rfl⟩ | ⟨rfl, hf, rfl⟩ | ⟨rfl, hf, rfl⟩ | ⟨rfl, hf, rfl⟩ | ⟨rfl, hf, rfl⟩ := exec_next_cases h
  · exact ⟨b, r, exec_size _⟩
  · exact ⟨b, r, exec_encode_of_fits (s.withMark b r) hf⟩
  · exact ⟨true, some ⟨.encode, s.cmd.cur⟩, exec_encode_of_short (s.withMark b r) hf⟩
  · exact ⟨b, r, exec_decode_of_fits (s.withMark b r) hf⟩
  · exact ⟨true, some ⟨.decode, s.cmd.cur⟩, exec_decode_of_short (s.withMark b r) hf⟩

/-- Settles O21: the two results differ at most in the mark and the record. -/
theorem theMarkDoesNotChangeTheBlock : Obligations.TheMarkDoesNotChangeTheBlock := by
  intro i s t b r h
  obtain ⟨_, _, hu⟩ := exec_withMark h b r
  exact ⟨_, hu, rfl, rfl, rfl, rfl, rfl, rfl⟩

/-! ## `ENCODE` repeated (R40, R126) -/

/-- Where the quantisers give every value, no free value is drawn (R103; log 1). -/
theorem Command.extensionBytes_eq_of_specified {p : Config.Params} {c : Command}
    (h : c.extensionLive = true →
      qCbr0 p c.met.cbr0 ≠ Option.none ∧ qCbr1 p c.met.cbr1 ≠ Option.none ∧ qTxp p c.phy.txPower ≠ Option.none)
    (m n : Nat) : c.extensionBytes p m = c.extensionBytes p n := by
  cases hlive : c.extensionLive with
  | false => rw [Command.extensionBytes_absent _ _ _ hlive, Command.extensionBytes_absent _ _ _ hlive]
  | true =>
    obtain ⟨h0, h1, hl⟩ := h hlive
    obtain ⟨q0, hq0⟩ := Option.ne_none_iff_exists'.1 h0
    obtain ⟨q1, hq1⟩ := Option.ne_none_iff_exists'.1 h1
    obtain ⟨l, hql⟩ := Option.ne_none_iff_exists'.1 hl
    rw [Command.extensionBytes_live _ _ _ hlive, Command.extensionBytes_live _ _ _ hlive, hq0, hq1, hql]
    rfl

/-- Only the extension draws free values. -/
theorem Command.window_congr {p : Config.Params} {c : Command} {m n : Nat}
    (h : c.extensionBytes p m = c.extensionBytes p n) : c.window p m = c.window p n := by
  rw [Command.window, Command.window, h]

/-- `ENCODE` of a command whose window already stands in the buffer changes no byte. -/
theorem encodeAdmitted_encodeAdmitted_byteAt {s : State}
    (h : s.cmd.window params (s.draws + 3) = s.cmd.window params s.draws) (a : Nat) :
    (encodeAdmitted (encodeAdmitted s)).byteAt a = (encodeAdmitted s).byteAt a := by
  by_cases hout : a < s.cmd.cur.toNat ∨ s.cmd.cur.toNat + 28 ≤ a
  · exact encodeAdmitted_byteAt_outside (encodeAdmitted s) a hout
  · obtain ⟨k, rfl⟩ := Nat.exists_eq_add_of_le (not_lt.1 fun hlow => hout (.inl hlow))
    have hk : k < 28 := by omega
    have hagain := encodeAdmitted_byteAt_inside (encodeAdmitted s) k hk
    simp only [encodeAdmitted_cmd, encodeAdmitted_draws, h] at hagain
    rw [hagain, encodeAdmitted_byteAt_inside s k hk]

/-- Settles O39: the window is a function of the command and of the free values to come, and of the command alone where
none is drawn. -/
theorem repeatedEncodeWritesTheSameBytes : Obligations.RepeatedEncodeWritesTheSameBytes := by
  refine ⟨fun s₁ s₂ hcmd hdraws hf₁ hf₂ => ⟨_, _, exec_encode_of_fits s₁ hf₁, exec_encode_of_fits s₂ hf₂,
    encodeAdmitted_byteAt_congr hcmd hdraws⟩, fun s hf hspec => ?_⟩
  exact ⟨_, _, exec_encode_of_fits s hf, exec_encode_of_fits _ (encodeAdmitted_windowFits hf),
    encodeAdmitted_encodeAdmitted_byteAt (Command.window_congr (Command.extensionBytes_eq_of_specified hspec _ _))⟩

end Sys2Proof.Machine
end

section
/-! The packed speed (42_fixed_point_scaler.md section 3): what it is for each sign and parity, and for each width of
the operand. -/

namespace Sys2Proof.Machine

/-- Settles O57: below zero the pattern is `speed + 2^16`, and of either pattern the packed speed keeps bits 14 to 1. -/
theorem speedLossFollowsSignAndParity : Obligations.SpeedLossFollowsSignAndParity := by
  intro v
  have hpacked := spdScale_toNat v
  have hint := BitVec.toInt_eq_toNat_cond v
  refine ⟨?_, ?_, ?_, ?_⟩ <;> omega

/-- A signed reading and the unsigned one agree modulo `2^15` from 15 bits on. -/
theorem toInt_emod_low15 {n : Nat} (hn : 16 ≤ n) (x : BitVec n) : x.toInt % 2 ^ 15 = (x.toNat : Int) % 2 ^ 15 := by
  have hdvd : (2 ^ 15 : Int) ∣ ((2 ^ n : Nat) : Int) := by
    exact_mod_cast pow_dvd_pow 2 (by omega : 15 ≤ n)
  rw [BitVec.toInt_eq_toNat_bmod, ← Int.emod_emod_of_dvd _ hdvd, Int.bmod_emod, Int.emod_emod_of_dvd _ hdvd]

/-- `SPD_SCALE` at any width from 16 up (R97). -/
theorem spdScale_eq_append_of_le {n : Nat} (hn : 16 ≤ n) (x : BitVec n) : spdScale x = x.extractLsb' 1 14 ++ 0#1 := by
  apply BitVec.eq_of_toNat_eq
  have hpacked := spdScale_toNat_eq_halveDouble x
  have hlow := toInt_emod_low15 hn x
  have hbits : (x.extractLsb' 1 14 ++ 0#1).toNat = x.toNat / 2 % 2 ^ 14 * 2 := by
    rw [toNat_append_eq_add, BitVec.extractLsb'_toNat, Nat.shiftRight_eq_div_pow]
    rfl
  rw [halveDouble] at hpacked
  omega

/-- `SPD_SCALE` reads the signed value of its operand only (R93). -/
theorem spdScale_congr {m n : Nat} {x : BitVec m} {y : BitVec n} (h : x.toInt = y.toInt) : spdScale x = spdScale y := by
  rw [spdScale, spdScale, sN, sN, h]

/-- Settles O58: sixteen bits determine the packed speed, and widening keeps the signed value. -/
theorem speedScaleIsIndependentOfItsWidth : Obligations.SpeedScaleIsIndependentOfItsWidth := fun _ hn =>
  ⟨spdScale_eq_append_of_le hn, fun _ => spdScale_congr (BitVec.toInt_signExtend_of_le hn)⟩

end Sys2Proof.Machine
end

section
/-! How far `RNE64` moves a value (R101): never past a binary64 value, and by at most half a step of any grid of 53 bits
that reaches it. -/

namespace Sys2Proof.Machine

/-! ## The values of binary64 -/

/-- `m` quanta of `2^j` units, `m` of at most 53 bits, are the units of some magnitude: fewer bits are a finer
grid's. -/
theorem exists_magnitude (m j : Nat) (hm : m ≤ 2 ^ 53) (hj : j ≤ 1074) :
    ∃ mag, mag < 2 ^ 63 ∧ magnitudeUnits mag = m * 2 ^ j := by
  induction j generalizing m with
  | zero => exact ⟨0 * 2 ^ 52 + m, by omega, magnitudeUnits_quanta 0 m hm (.inl rfl)⟩
  | succ j ih =>
    rcases Nat.lt_or_ge m (2 ^ 52) with hlow | hfull
    · obtain ⟨mag, hmag, hunits⟩ := ih (2 * m) (by omega) (by omega)
      exact ⟨mag, hmag, by rw [hunits, pow_succ]; ring⟩
    · exact ⟨(j + 1) * 2 ^ 52 + m, by omega, magnitudeUnits_quanta (j + 1) m hm (.inr hfull)⟩

/-- A multiple of `2^-j` of at most 53 bits is a binary64 value. -/
theorem exists_val_eq (m j : Nat) (hm : m ≤ 2 ^ 53) (hj : j ≤ 1074) : ∃ y, val y = (m : ℚ) / 2 ^ j := by
  obtain ⟨mag, hmag, hunits⟩ := exists_magnitude m (1074 - j) hm (by omega)
  refine ⟨BitVec.ofBool false ++ BitVec.ofNat 63 mag, ?_⟩
  have hone : (one64 : ℚ) = 2 ^ (1074 - j) * 2 ^ j := by
    rw [← pow_add, Nat.sub_add_cancel hj, one64, Nat.cast_pow, Nat.cast_ofNat]
  rw [val, units_pattern false mag hmag, if_neg Bool.false_ne_true, hunits, hone, Int.cast_natCast, Nat.cast_mul,
    Nat.cast_pow, Nat.cast_ofNat, mul_comm, mul_div_mul_left _ _ (by positivity)]

/-! ## Rounding is no further than the grid -/

section Rounded
variable {num : Int} {den : Nat} (hden : 0 < den) (hfin : fpFinite (rne64 num den) = true)
include hden hfin

/-- Rounding does not pass a binary64 value. -/
theorem val_le_val_rne64 {y : BitVec 64} (h : val y ≤ (num : ℚ) / den) : val y ≤ val (rne64 num den) := by
  by_contra hlt
  have hmid := two_mul_le_add_of_nearer (not_le.1 hlt) (rne64_nearest num den hden hfin y).1
  linarith

/-- On a grid of step `2^-j` that reaches the value with 53 bits, rounding moves it by half a step at most. -/
theorem abs_val_rne64_sub_le (j : Nat) (hj : j ≤ 1074) (hnum : 0 ≤ (num : ℚ) / den)
    (hle : (num : ℚ) / den * 2 ^ j ≤ 2 ^ 53) : |val (rne64 num den) - (num : ℚ) / den| ≤ 1 / 2 / 2 ^ j := by
  have hpos : (0 : ℚ) < 2 ^ j := by positivity
  have hscaled : 0 ≤ (num : ℚ) / den * 2 ^ j := mul_nonneg hnum hpos.le
  have hnonneg : 0 ≤ round ((num : ℚ) / den * 2 ^ j) := by
    rw [round_eq]
    exact Int.floor_nonneg.2 (by linarith)
  have hbits : round ((num : ℚ) / den * 2 ^ j) ≤ 2 ^ 53 := by
    rw [round_eq]
    refine Int.lt_add_one_iff.1 (Int.floor_lt.2 ?_)
    push_cast
    linarith
  obtain ⟨m, hm⟩ := Int.eq_ofNat_of_zero_le hnonneg
  obtain ⟨y, hy⟩ := exists_val_eq m j (by omega) hj
  have hgrid := abs_sub_round ((num : ℚ) / den * 2 ^ j)
  rw [hm, Int.cast_natCast, abs_sub_comm] at hgrid
  calc |val (rne64 num den) - (num : ℚ) / den|
      ≤ |val y - (num : ℚ) / den| := (rne64_nearest num den hden hfin y).1
    _ = |(m : ℚ) - (num : ℚ) / den * 2 ^ j| / 2 ^ j := by
      rw [hy, ← abs_of_pos hpos, ← abs_div, abs_of_pos hpos, sub_div, mul_div_cancel_right₀ _ hpos.ne']
    _ ≤ 1 / 2 / 2 ^ j := div_le_div_of_nonneg_right hgrid hpos.le

end Rounded

end Sys2Proof.Machine
end

section
/-! The ratio quantisers together (43_cbr_txpower_quantizer.md sections 2, 3 and 5): hop 1 without the clamp, the
distance of the byte from the ratio, the order, and the bytes that a decoded ratio gives back. -/

namespace Sys2Proof.Machine

/-! ## `Q_CBR1` (R106) -/

/-- The low 8 bits of the floor of the rounded product. -/
theorem qCbr1_eq_floor {x : BitVec 64} (h : fpFinite x = true) (hprod : fpFinite (rne64 (units x * 255) one64) = true) :
    qCbr1 params x = some (uN 8 ⌊scaledRatio (units x)⌋) := by
  have hmul : mul255 params.cbrMul (units x) = some (units (rne64 (units x * 255) one64)) := mul255_of_finite hprod
  have hround (q : Int) : roundProduct params.cbr1NegRounding q = floorUnits q := rfl
  rw [qCbr1_of_finite h, quantWrapped, hmul, Option.map_some, hround, floorUnits_units, scaledRatio]

theorem uN_byte_toNat_eq_emod (z : Int) : ((uN 8 z).toNat : Int) = z % 256 := by
  rw [uN, BitVec.toNat_ofInt]
  omega

/-- The product that `RNE64` rounds, as a rational (R104). -/
theorem units_mul_255_div (x : BitVec 64) : ((units x * 255 : Int) : ℚ) / one64 = 255 * val x := by
  rw [val, Int.cast_mul, Int.cast_ofNat]
  ring

section UnitInterval
variable {x : BitVec 64} (h0 : 0 ≤ val x) (h1 : val x ≤ 1)
include h0 h1

theorem units_bounds_of_unit : 0 ≤ units x ∧ units x ≤ one64 := by
  constructor
  · exact_mod_cast val_mul_one64 x ▸ mul_nonneg h0 one64_cast_pos.le
  · exact_mod_cast val_mul_one64 x ▸ mul_le_of_le_one_left one64_cast_pos.le h1

theorem scaledRatio_finite_of_unit : fpFinite (rne64 (units x * 255) one64) = true :=
  scaledRatio_finite (units_bounds_of_unit h0 h1).1 (units_bounds_of_unit h0 h1).2

/-- On [0, 1] the clamp of hop 0 does nothing. -/
theorem clampedUnits_of_unit : clampedUnits x = units x := by
  obtain ⟨hlow, hhigh⟩ := units_bounds_of_unit h0 h1
  rw [clampedUnits, clamp, max_eq_left hlow, min_eq_left hhigh]

theorem qCbr1_eq_qCbr0 (h : fpFinite x = true) : qCbr1 params x = qCbr0 params x := by
  rw [qCbr1_eq_floor h (scaledRatio_finite_of_unit h0 h1), qCbr0_eq_floor h, clampedUnits_of_unit h0 h1]

end UnitInterval

/-- A small negative product rounds into [-1, 0): to no less than -1, and to no more than -1 unit. -/
theorem qCbr1_of_small_neg {x : BitVec 64} (h : fpFinite x = true) (hlow : -1 ≤ 255 * val x) (hneg : val x < 0) :
    qCbr1 params x = some 255#8 := by
  have hratio := units_mul_255_div x
  have hprod : fpFinite (rne64 (units x * 255) one64) = true := by
    rw [← Bool.not_eq_false, rne64_infinite_iff _ _ one64_pos, not_le, hratio, abs_of_neg (by linarith)]
    exact lt_trans (by linarith) small_lt_overflow_threshold
  have hminus : -(one64 : Int) ≤ units x * 255 := by
    rw [← hratio, le_div_iff₀ one64_cast_pos, neg_one_mul] at hlow
    exact_mod_cast hlow
  have hunits : units x < 0 := by
    have hmul := mul_neg_of_neg_of_pos hneg one64_cast_pos
    rw [val_mul_one64] at hmul
    exact_mod_cast hmul
  have hone : fpFinite (rne64 (-(one64 : Int)) one64) = true ∧ val (rne64 (-(one64 : Int)) one64) = -1 := by
    decide +kernel
  have hunit : fpFinite (rne64 (-1) one64) = true ∧ val (rne64 (-1) one64) < 0 := by decide +kernel
  have hge : -1 ≤ scaledRatio (units x) := hone.2 ▸ val_rne64_mono one64_pos hminus hone.1 hprod
  have hlt : scaledRatio (units x) < 0 :=
    (val_rne64_mono one64_pos (by omega) hprod hunit.1).trans_lt hunit.2
  have hfloor : ⌊scaledRatio (units x)⌋ = -1 := by
    rw [Int.floor_eq_iff]
    push_cast
    constructor <;> linarith
  rw [qCbr1_eq_floor h hprod, hfloor]
  rfl

/-- Settles O44: the byte is the floor's residue; on [0, 1] nothing is clamped, and a small negative product has the
floor -1. -/
theorem hopOneIsNotClampedAndWraps : Obligations.HopOneIsNotClampedAndWraps := by
  refine ⟨fun x hfin hprod => ⟨_, qCbr1_eq_floor hfin hprod, uN_byte_toNat_eq_emod _⟩,
    fun x hfin h0 h1 => qCbr1_eq_qCbr0 h0 h1 hfin, fun x hfin hlow hneg => qCbr1_of_small_neg hfin hlow hneg, ?_⟩
  decide +kernel

/-! ## The decoded ratio gives its byte back (R112, R113) -/

/-- Hop 0, for each of the 256 bytes, by computing the two roundings. -/
theorem qCbr0_dqCbr : ∀ b : Byte, qCbr0 params (dqCbr b) = some b := by decide +kernel

/-- Settles O48: hop 0 byte by byte, and hop 1 because a decoded ratio is in [0, 1]. -/
theorem reencodingReproducesEveryCbrByte : Obligations.ReencodingReproducesEveryCbrByte := fun b =>
  ⟨qCbr0_dqCbr b,
    (qCbr1_eq_qCbr0 (val_dqCbr_nonneg b) (val_dqCbr_le_one b) (dqCbr_finite b)).trans (qCbr0_dqCbr b)⟩

/-! ## Distances (R109 items 1 and 2) -/

/-- The rounded product is within half a step of the 53-bit grid of [0, 256]. -/
theorem abs_scaledRatio_sub_le {x : BitVec 64} (h0 : 0 ≤ val x) (h1 : val x ≤ 1) :
    |scaledRatio (units x) - 255 * val x| ≤ 1 / 2 ^ 46 := by
  have h := abs_val_rne64_sub_le one64_pos (scaledRatio_finite_of_unit h0 h1) 45 (by decide)
  rw [units_mul_255_div] at h
  refine (h (by linarith) (by linarith)).trans_eq ?_
  norm_num

/-- What rounds below a natural number was below it already. -/
theorem mul_val_lt_of_scaledRatio_lt {x : BitVec 64} (h0 : 0 ≤ val x) (h1 : val x ≤ 1) {n : Nat} (hn : n ≤ 2 ^ 53)
    (hlt : scaledRatio (units x) < n) : 255 * val x < n := by
  by_contra hge
  obtain ⟨y, hy⟩ := exists_val_eq n 0 hn (by decide)
  rw [pow_zero, div_one] at hy
  have hround := val_le_val_rne64 (y := y) one64_pos (scaledRatio_finite_of_unit h0 h1)
    (by rw [hy, units_mul_255_div]; exact not_lt.1 hge)
  rw [hy] at hround
  exact not_lt.2 hround hlt

/-- On [0, 1] the byte of both hops is the floor of the one rounded product. -/
theorem qCbr_of_unit {x : BitVec 64} (h : fpFinite x = true) (h0 : 0 ≤ val x) (h1 : val x ≤ 1) :
    ∃ b, qCbr0 params x = some b ∧ qCbr1 params x = some b
      ∧ (b.toNat : ℚ) ≤ scaledRatio (units x) ∧ scaledRatio (units x) < (b.toNat : ℚ) + 1 := by
  have hfloor := qCbr0_floor_toNat x
  have hq := qCbr0_eq_floor h
  rw [clampedUnits_of_unit h0 h1] at hfloor hq
  refine ⟨_, hq, (qCbr1_eq_qCbr0 h0 h1 h).trans hq, ?_⟩
  rw [← Int.cast_natCast, hfloor]
  exact ⟨Int.floor_le _, Int.lt_floor_add_one _⟩

/-- `DQ_CBR` is within half a step of the 53-bit grid of [0, 1]. -/
theorem abs_val_dqCbr_sub_le (b : Byte) : |val (dqCbr b) - (b.toNat : ℚ) / 255| ≤ 1 / 2 ^ 54 := by
  have hle : (b.toNat : ℚ) ≤ 255 := by exact_mod_cast Nat.le_of_lt_succ b.isLt
  have h := abs_val_rne64_sub_le (num := b.toNat) (den := 255) (by decide) (dqCbr_finite b) 53 (by decide)
  rw [Int.cast_natCast, Nat.cast_ofNat] at h
  refine (h (by positivity) (by linarith)).trans_eq ?_
  norm_num

/-- Settles O46: the byte is a floor of the product that was moved by at most `2^-46` and past no whole number, and the
decoded ratio is within `2^-54` of `b / 255`. -/
theorem cbrQuantisationIsWithinOneStep : Obligations.CbrQuantisationIsWithinOneStep := by
  intro x hfin h0 h1
  obtain ⟨b, hq0, hq1, hlow, hhigh⟩ := qCbr_of_unit hfin h0 h1
  have hbelow : (b.toNat : ℚ) - 1 / 2 ^ 46 ≤ 255 * val x := by
    have hmoved := (abs_le.1 (abs_scaledRatio_sub_le h0 h1)).2
    linarith
  have habove : 255 * val x < (b.toNat : ℚ) + 1 := by
    have h := mul_val_lt_of_scaledRatio_lt (n := b.toNat + 1) h0 h1 (by omega) (by push_cast; exact hhigh)
    push_cast at h
    exact h
  have hstep : |(b.toNat : ℚ) / 255 - val x| < 1 / 255 := by
    rw [abs_lt]
    constructor <;> linarith
  have hdecoded : |val (dqCbr b) - val x| < 1 / 255 + 1 / 2 ^ 54 :=
    calc |val (dqCbr b) - val x|
        ≤ |val (dqCbr b) - (b.toNat : ℚ) / 255| + |(b.toNat : ℚ) / 255 - val x| := abs_sub_le _ _ _
      _ < 1 / 255 + 1 / 2 ^ 54 := by linarith [abs_val_dqCbr_sub_le b]
  exact ⟨b, hq0, hq1, hbelow, habove, hstep, hdecoded⟩

/-! ## Order (R109 item 4) -/

theorem val_le_val_iff (x y : BitVec 64) : val x ≤ val y ↔ units x ≤ units y := by
  rw [val, val, div_le_div_iff_of_pos_right one64_cast_pos, Int.cast_le]

theorem val_inj {x y : BitVec 64} : val x = val y ↔ units x = units y := by
  rw [le_antisymm_iff, val_le_val_iff, val_le_val_iff, ← le_antisymm_iff]

theorem clampedUnits_mono {x y : BitVec 64} (h : val x ≤ val y) : clampedUnits x ≤ clampedUnits y :=
  min_le_min_right _ (max_le_max_right _ ((val_le_val_iff x y).1 h))

/-- Clamping, scaling and the floor each keep the order. -/
theorem floor_scaledRatio_mono {x y : BitVec 64} (h : val x ≤ val y) :
    ⌊scaledRatio (clampedUnits x)⌋ ≤ ⌊scaledRatio (clampedUnits y)⌋ :=
  Int.floor_mono (scaledRatio_mono (clampedUnits_nonneg x) (clampedUnits_mono h) (clampedUnits_le y))

/-- Two bytes with one decoded ratio are the byte that it gives back. -/
theorem val_dqCbr_injective {a b : Byte} (h : val (dqCbr a) = val (dqCbr b)) : a = b := by
  have hquant : qCbr0 params (dqCbr a) = qCbr0 params (dqCbr b) := by
    rw [qCbr0_of_finite (dqCbr_finite a), qCbr0_of_finite (dqCbr_finite b), val_inj.1 h]
  rw [qCbr0_dqCbr, qCbr0_dqCbr] at hquant
  exact Option.some.inj hquant

/-- Settles O47: quantising is a chain of monotone maps, and decoding is monotone and, since it can be undone,
injective. -/
theorem cbrQuantiserIsMonotone : Obligations.CbrQuantiserIsMonotone := by
  refine ⟨fun x y hx hy hle => ⟨_, _, qCbr0_eq_floor hx, qCbr0_eq_floor hy, ?_, fun h0 h1 => ⟨?_, ?_⟩⟩,
    fun a b hlt => ?_⟩
  · have hfloor := floor_scaledRatio_mono hle
    rw [← qCbr0_floor_toNat x, ← qCbr0_floor_toNat y] at hfloor
    exact_mod_cast hfloor
  · exact (qCbr1_eq_qCbr0 h0 (hle.trans h1) hx).trans (qCbr0_eq_floor hx)
  · exact (qCbr1_eq_qCbr0 (h0.trans hle) h1 hy).trans (qCbr0_eq_floor hy)
  · refine lt_of_le_of_ne (val_dqCbr_mono hlt.le) fun heq => ?_
    rw [val_dqCbr_injective heq] at hlt
    exact lt_irrefl _ hlt

end Sys2Proof.Machine
end

section
/-! The codec there and back (44_encode.md, 45_decode.md): what `DECODE` finds in the window that `ENCODE` wrote, and
what `ENCODE` writes of the results that `DECODE` returned. -/

namespace Sys2Proof.Machine

/-! ## `DECODE` of what `ENCODE` wrote (R133) -/

/-- The window after `ENCODE`, read back. -/
theorem encodeAdmitted_memRead (s : State) :
    (encodeAdmitted s).memRead s.cmd.cur.toNat 28 = s.cmd.window params s.draws :=
  Vector.ext fun k hk => (State.memRead_getElem _ _ 28 k hk).trans (encodeAdmitted_byteAt_inside s k hk)

/-- The exact fields come back from the bytes they were put in; the speed is masked, the extension re-read. -/
theorem decodeWindow_window (p : Config.Params) (c : Command) (n : Nat) :
    decodeWindow (c.window p n) =
      { address := c.hdr.address
        timestamp := c.hdr.timestamp
        latitude := c.hdr.latitude
        longitude := c.hdr.longitude
        speed := c.hdr.speed &&& 0x7FFE#16
        positionAccuracy := c.hdr.positionAccuracy
        heading := c.hdr.heading
        cbr0 := dqCbr (c.extensionBytes p n)[0]
        cbr1 := dqCbr (c.extensionBytes p n)[1]
        txPowerLevel := unpackTxp (c.extensionBytes p n)[2] } := by
  have hput : decodeWindow (c.window p n) =
      { address := getBytes8 (putBytes8 c.hdr.address)
        timestamp := getBe32 (putBe32 c.hdr.timestamp)
        latitude := fxFromWire (getBe32 (putBe32 (fxToWire c.hdr.latitude)))
        longitude := fxFromWire (getBe32 (putBe32 (fxToWire c.hdr.longitude)))
        speed := spdUnscale
          (unpackPaispd (getBe16 (putBe16 (packPaispd c.hdr.positionAccuracy (spdScale c.hdr.speed))))).2
        positionAccuracy :=
          (unpackPaispd (getBe16 (putBe16 (packPaispd c.hdr.positionAccuracy (spdScale c.hdr.speed))))).1
        heading := getBe16 (putBe16 c.hdr.heading)
        cbr0 := dqCbr (c.extensionBytes p n)[0]
        cbr1 := dqCbr (c.extensionBytes p n)[1]
        txPowerLevel := unpackTxp (c.extensionBytes p n)[2] } := rfl
  simp only [hput, getBytes8_putBytes8, getBe32_putBe32, getBe16_putBe16, fxToWire_eq, fxFromWire_eq,
    unpackPaispd_packPaispd, spdUnscale_spdScale]

/-- `Q_TXP` clamps to 31, so its level fits the 5 bits of byte 26 (R110). -/
theorem qTxp_le {p : Config.Params} {x : BitVec 64} {l : Nat} (h : qTxp p x = some l) : l ≤ 31 := by
  unfold qTxp at h
  split at h
  · cases h
  · obtain rfl := Option.some.inj h
    split <;> decide
  · obtain rfl := Option.some.inj h
    unfold clamp
    omega

/-- Settles O37: the window read back is the one written, and each unit undoes its other half. -/
theorem roundTripReturnsTheExactFields : Obligations.RoundTripReturnsTheExactFields := by
  intro s hf
  refine ⟨_, _, _, exec_encode_of_fits s hf, exec_decode_of_fits _ (encodeAdmitted_windowFits hf),
    decodeAdmitted_res _, decodeAdmitted_buf _, ?_⟩
  rw [encodeAdmitted_cmd, encodeAdmitted_memRead, decodeWindow_window]
  refine ⟨rfl, rfl, rfl, rfl, rfl, rfl, rfl, fun hboth => ?_⟩
  rw [Command.extensionBytes_live _ _ _ (s.cmd.extensionLive_iff.2 hboth)]
  refine ⟨fun q hq => ?_, fun q hq => ?_, fun l hl => ?_⟩
  · simp [hq]
  · simp [hq]
  · simpa [hl] using unpackTxp_packTxp_toNat l (qTxp_le hl)

/-! ## `ENCODE` of what `DECODE` returned (R139) -/

/-- A level given as a binary64 value is quantised to itself (R110). -/
theorem qTxp_of_val_eq {x : BitVec 64} (hfin : fpFinite x = true) {k : Nat} (hk : k ≤ 31) (hval : val x = k) :
    qTxp params x = some k := by
  have hunits : 0 ≤ units x := by
    have hnonneg : (0 : ℚ) ≤ units x := val_mul_one64 x ▸ mul_nonneg (hval ▸ Nat.cast_nonneg k) one64_cast_pos.le
    exact_mod_cast hnonneg
  have hround : roundHalfAway (units x) = k := by
    rw [roundHalfAway_of_nonneg hunits, ← val, hval, Int.floor_eq_iff]
    push_cast
    constructor <;> linarith
  refine qTxp_eq_of_clamp hfin ?_
  rw [hround, clamp]
  omega

/-- The header that a program re-issues: the fields that `DECODE` returned. -/
def Decoded.hdr (d : Decoded) : Hdr :=
  ⟨d.address, d.timestamp, d.latitude, d.longitude, d.speed, d.positionAccuracy, d.heading⟩

/-- The command that a program re-issues with both collaborators present: the header, the ratios, and the power `x`. -/
def Decoded.command (d : Decoded) (code : List Byte) (cur : BitVec 32) (x : BitVec 64) : Command :=
  ⟨code, cur, d.hdr, ⟨true, d.cbr0, d.cbr1⟩, ⟨true, x⟩⟩

/-- A mask of `k` bits above a zero bit. -/
theorem and_mask_above_zero (x k : Nat) : x &&& ((2 ^ k - 1) * 2) = x / 2 % 2 ^ k * 2 := by
  have hhalf : (x &&& ((2 ^ k - 1) * 2)) / 2 = x / 2 % 2 ^ k := by
    rw [Nat.and_div_two, Nat.mul_div_cancel _ (by decide), Nat.and_two_pow_sub_one_eq_mod]
  have heven : (x &&& ((2 ^ k - 1) * 2)) % 2 = 0 := by
    have h := Nat.and_mod_two_pow (a := x) (b := (2 ^ k - 1) * 2) (n := 1)
    rwa [pow_one, Nat.mul_mod_left, Nat.and_zero] at h
  omega

/-- Packing the decoded accuracy and speed clears bit 0 of their word. -/
theorem packPaispd_decodeWindow (w : Vector Byte 28) :
    packPaispd (decodeWindow w).positionAccuracy (spdScale (decodeWindow w).speed)
      = (w[20] ++ (w[21] &&& 0xFE#8) : BitVec 16) := by
  apply BitVec.eq_of_toNat_eq
  have hacc : (decodeWindow w).positionAccuracy.toNat = (w[20].toNat * 2 ^ 8 + w[21].toNat) / 2 ^ 15 := by
    rw [← toNat_append_eq_add, ← Nat.shiftRight_eq_div_pow]
    exact unpackPaispd_accuracy_toNat _
  have hspeed : (decodeWindow w).speed.toNat = (w[20].toNat * 2 ^ 8 + w[21].toNat) % 2 ^ 15 :=
    (decodeWindow_speed_toNat w).trans (Nat.and_two_pow_sub_one_eq_mod _ 15)
  have hmask : (w[21] &&& 0xFE#8).toNat = w[21].toNat / 2 % 2 ^ 7 * 2 :=
    (BitVec.toNat_and _ _).trans (and_mask_above_zero _ 7)
  have h20 := w[20].isLt
  have h21 := w[21].isLt
  have hwide : (w[20] ++ (w[21] &&& 0xFE#8) : BitVec 16).toNat = w[20].toNat * 2 ^ 8 + (w[21] &&& 0xFE#8).toNat :=
    toNat_append_eq_add w[20] (w[21] &&& 0xFE#8)
  rw [packPaispd_toNat, spdScale_toNat, hacc, hspeed, hwide, hmask]
  omega

section Reissued
variable {w : Vector Byte 28} {c : Command} (hhdr : c.hdr = (decodeWindow w).hdr) (p : Config.Params) (n : Nat)
include hhdr

/-- Bytes 20 and 21 of the re-issued header are those that were read, without bit 0. -/
theorem Command.window_reissued_paispd :
    (c.window p n)[20] = w[20] ∧ (c.window p n)[21] = w[21] &&& 0xFE#8 := by
  have h20 := Command.window_paispd p c n 0 (by decide)
  have h21 := Command.window_paispd p c n 1 (by decide)
  rw [hhdr, Decoded.hdr, packPaispd_decodeWindow] at h20 h21
  exact ⟨h20.trans BitVec.extractLsb'_append_eq_left, h21.trans BitVec.extractLsb'_append_eq_right⟩

/-- The bytes of its exact fields are those that were read. -/
theorem Command.window_reissued_exact (k : Nat) (hk : k < 24) (h20 : k ≠ 20) (h21 : k ≠ 21) :
    (c.window p n)[k] = w[k] := by
  have hfield : ∀ k < 24, k ≠ 20 → k ≠ 21 →
      k < 8 ∨ (∃ j < 4, k = 8 + j) ∨ (∃ j < 4, k = 12 + j) ∨ (∃ j < 4, k = 16 + j) ∨ ∃ j < 2, k = 22 + j := by decide
  obtain hj | ⟨j, hj, rfl⟩ | ⟨j, hj, rfl⟩ | ⟨j, hj, rfl⟩ | ⟨j, hj, rfl⟩ := hfield k hk h20 h21
  · rw [Command.window_address _ _ _ k hj, hhdr]
    exact decodeWindow_address_byte w k hj
  · rw [Command.window_timestamp _ _ _ j hj, hhdr]
    exact decodeWindow_timestamp_byte w j hj
  · rw [Command.window_latitude _ _ _ j hj, hhdr]
    exact decodeWindow_latitude_byte w j hj
  · rw [Command.window_longitude _ _ _ j hj, hhdr]
    exact decodeWindow_longitude_byte w j hj
  · rw [Command.window_heading _ _ _ j hj, hhdr]
    exact decodeWindow_heading_byte w j hj

end Reissued

section Command
variable (w : Vector Byte 28) (code : List Byte) (cur : BitVec 32) {x : BitVec 64} (hfin : fpFinite x = true)
  (hval : val x = ((decodeWindow w).txPowerLevel.toNat : ℚ)) (n : Nat)
include hfin hval

/-- The re-issued ratios give their bytes back, the level its 5 bits, and no free value is drawn (R112, R113). -/
theorem Decoded.command_extensionBytes :
    ((decodeWindow w).command code cur x).extensionBytes params n = #v[w[24], w[25], w[26] &&& 0x1F#8, 0x00#8] := by
  have hlevel : (decodeWindow w).txPowerLevel.toNat ≤ 31 := Nat.le_of_lt_succ (decodeWindow w).txPowerLevel.isLt
  have hpower := qTxp_of_val_eq hfin hlevel hval
  rw [decodeWindow_txPowerLevel] at hpower
  obtain ⟨h0, -⟩ := reencodingReproducesEveryCbrByte w[24]
  obtain ⟨-, h1⟩ := reencodingReproducesEveryCbrByte w[25]
  rw [Command.extensionBytes_live _ _ _ rfl, Decoded.command, decodeWindow_cbr0, decodeWindow_cbr1, h0, h1, hpower,
    drawnByte_some, drawnByte_some, drawnLevel_some, packTxp_unpackTxp]

/-- The window of the re-issued command is the one that was read, but for the bits that hold no field. -/
theorem Decoded.command_window {v : Vector Byte 28} (hv : ((decodeWindow w).command code cur x).window params n = v) :
    (∀ k (hk : k < 28), k ≠ 21 → k ≠ 26 → k ≠ 27 → v[k] = w[k])
      ∧ v[21] = w[21] &&& 0xFE#8 ∧ v[26] = w[26] &&& 0x1F#8 ∧ v[27] = 0x00#8 := by
  subst hv
  have hhdr : ((decodeWindow w).command code cur x).hdr = (decodeWindow w).hdr := rfl
  have hexact := Command.window_reissued_exact hhdr params n
  obtain ⟨h20, h21⟩ := Command.window_reissued_paispd hhdr params n
  have hextension (j : Nat) (hj : j < 4) :=
    (Command.window_extension params _ n j hj).trans
      (congrArg (·[j]) (Decoded.command_extensionBytes w code cur hfin hval n))
  refine ⟨fun k hk hk21 hk26 hk27 => ?_, h21, hextension 2 (by decide), hextension 3 (by decide)⟩
  rcases Nat.lt_or_ge k 24 with hlow | hhigh
  · rcases eq_or_ne k 20 with rfl | hk20
    · exact h20
    · exact hexact k hlow hk20 hk21
  · obtain rfl | rfl : k = 24 ∨ k = 25 := by omega
    · exact hextension 0 (by decide)
    · exact hextension 1 (by decide)

end Command

/-- Settles O38: the window that `ENCODE` writes is that of the re-issued command, in the state that `DECODE` left. -/
theorem decodeThenEncodeIsCanonical : Obligations.DecodeThenEncodeIsCanonical := by
  refine fun s hf => ⟨_, _, exec_decode_of_fits s hf, decodeAdmitted_res s, fun x code hfin hval => ?_⟩
  have hread (k : Nat) (hk : k < 28) := State.memRead_getElem s s.cmd.cur.toNat 28 k hk
  generalize s.memRead s.cmd.cur.toNat 28 = w at hread hval ⊢
  have hbyte := encodeAdmitted_byteAt_inside { decodeAdmitted s with cmd := (decodeWindow w).command code s.cmd.cur x }
  obtain ⟨hkept, h21, h26, h27⟩ := Decoded.command_window w code s.cmd.cur hfin hval s.draws rfl
  refine ⟨_, exec_encode_of_fits _ hf, fun k hk hk21 hk26 hk27 => ?_, ?_, ?_, ?_⟩
  · exact (hbyte k hk).trans ((hkept k hk hk21 hk26 hk27).trans (hread k hk))
  · rw [← hread 21 (by decide), ← h21]
    exact hbyte 21 (by decide)
  · rw [← hread 26 (by decide), ← h26]
    exact hbyte 26 (by decide)
  · exact (hbyte 27 (by decide)).trans h27

end Sys2Proof.Machine
end
